-- ==== Sys2Proof/Word.lean ====
section
/-! DEFINITION. The words of the machine, by the widths the spec names (R7 and R49 of spec/00_scope.md and
spec/20_memory.md). -/

namespace Sys2Proof

/-- `u8`: a byte of the source buffer, an IMM8 operand, a table index (R7, R49). -/
abbrev Byte := BitVec 8

/-- `u32`: a word of the command port, and the STATUS register (R49, R60, R23). -/
abbrev Word := BitVec 32

/-- `u64`: the checksum register, a table entry, the data of a response (R7, R49). -/
abbrev U64 := BitVec 64

end Sys2Proof
end

