-- ==== Sys2Proof/Config.lean ====
section
/-! DEFINITION. What a realisation fixes (the parameters of R5, spec/00_scope.md), the constants the source fixes, and the
free value of R55 (spec/20_memory.md). -/

namespace Sys2Proof

/-- RANGE_POLICY (R5): what UPDR does with an invalid range (R107, R108 of spec/41_update_engine.md). -/
inductive RangePolicy where
  /-- CHECK_FIRST: the range is checked before any byte is read (R107). -/
  | checkFirst
  /-- FOLD_UNTIL_FAULT: bytes are folded up to the first index outside the buffer (R108). -/
  | foldUntilFault
deriving DecidableEq, Repr

/-- The parameters of R5, fixed for one realisation. A width and a number of engines are 1 or more. -/
structure Config where
  /-- POLY, the reflected polynomial (R5, R6). -/
  poly : U64
  /-- IDX_W, the width of the operands OFF and LEN (R5). The encoding of R63 is that of 32, the default; log 4 says
  what the model takes another width to be. -/
  idxW : PNat
  /-- SRC_LEN_MAX, the largest source buffer a host may bind (R5). -/
  srcLenMax : Nat
  /-- RANGE_POLICY (R5). -/
  rangePolicy : RangePolicy
  /-- HAS_TREAD (R5). -/
  hasTread : Bool
  /-- NUM_ENGINES (R5, R152). -/
  numEngines : PNat
deriving DecidableEq, Repr

/-- The defaults of R5. The default POLY is the spec's own, which it marks as general knowledge (PRESUMED, log 2);
NUM_ENGINES is open in the spec and 1 here (DESIGN CHOICE, log 3). -/
def Config.default : Config where
  poly := 0xC96C5795D7870F42#64
  idxW := 32
  srcLenMax := 2 ^ 31 - 1
  rangePolicy := .checkFirst
  hasTread := true
  numEngines := 1

/-- PRESET (R5): the register's value after reset and INIT, all ones. -/
def preset : U64 := 0xFFFFFFFFFFFFFFFF#64

/-- GEN_ITER (R5): shift iterations for one table entry. -/
def genIter : Nat := 8

/-- The byte folded for an index of the source buffer that the host writes while the UPDR that reads it is in progress:
"any u8 value (a draw under no law)" (R55, I5). The first argument tells the commands apart (the counter
`State.draws`), the second the indices within one command. It has no body: nothing is known of its values (log 14). -/
opaque Config.freeByte : Nat → Nat → Byte

/-- What an index of a source buffer that the list does not name reads as. A bound buffer holds a byte at every index;
the list leaves out the zero bytes, so that equal buffers are equal lists (DESIGN CHOICE, log 13). -/
def unlistedByte : Byte := 0#8

end Sys2Proof
end

