-- ==== Sys2Proof/Syntax.lean ====
section
/-! DEFINITION. The commands of CRC64-CMD version 1: one constructor for each row of spec/opcode_table.json
(R64 of spec/30_encoding.md). -/

namespace Sys2Proof

/-- A command with its operands. A byte operand is 8 bits (R61, R105); OFF and LEN are the exact integers that R63
assembles, so a term can hold an integer that no operand word encodes: `Instr.wf` refuses it. -/
inductive Instr where
  /-- INIT: preset the checksum register (R101). -/
  | init
  /-- UPDB: fold one byte (R104). -/
  | updb (x : Byte)
  /-- UPDR: fold the bytes at `off` to `off + len - 1` of the source buffer (R106 to R108). -/
  | updr (off len : Int)
  /-- VALUE: answer the complement of the register (R110). -/
  | value
  /-- TREAD: answer the table entry at an index (R85). -/
  | tread (index : Byte)
deriving DecidableEq, Repr

/-- The UPDB a host issues for a byte it holds in a wider or signed form: its low 8 bits (R105). -/
def Instr.updByte (v : Int) : Instr := .updb (BitVec.ofInt 8 v)

/-- UPDALL (R72): `UPDR 0, src_len`. -/
def Instr.updAll (srcLen : Nat) : Instr := .updr 0 srcLen

/-- UPDSTR (R72): one UPDB for each character, in order. -/
def Instr.updStr (text : List Byte) : List Instr := text.map .updb

end Sys2Proof
end

