-- ==== Sys2Proof/WellFormed.lean ====
section
/-! DEFINITION. Which terms of `Instr` an encoding exists for: OFF and LEN are two's-complement integers of the width that
the realisation reads (R5, R63, and R71: "An operand out of range is an assembly error, not an encoding"). -/

namespace Sys2Proof

/-- A two's-complement integer of some bits: -2^(bits-1) to 2^(bits-1) - 1. -/
def fitsSigned (bits : Nat) (v : Int) : Bool := decide (-(2 ^ (bits - 1)) ≤ v ∧ v < 2 ^ (bits - 1))

/-- An integer an s32 operand word can hold: -2^31 to 2^31 - 1 (R63, R71). -/
def fitsS32 (v : Int) : Bool := fitsSigned 32 v

/-- How many bits of an operand word count: IDX_W, and at most the word's 32 (R49, R63; log 4). -/
def operandBits (idxW : PNat) : Nat := min idxW 32

/-- A command that has an encoding in a realisation with that IDX_W (R63, R64, R71). -/
def Instr.wf (idxW : PNat) : Instr → Bool
  | .init => true
  | .updb _ => true
  | .updr off len => fitsSigned (operandBits idxW) off && fitsSigned (operandBits idxW) len
  | .value => true
  | .tread _ => true

end Sys2Proof
end

