-- ==== Sys2Proof/Decode.lean ====
section
/-! DEFINITION. The decoder and the encoder of CRC64-CMD version 1 (R60 to R70 of spec/30_encoding.md). The command
port carries 32-bit words, so both work on lists of words and no byte order enters (R49, R58). -/

namespace Sys2Proof

/-! ### The fields of word 0 (R61) -/

/-- OP, bits 3:0. -/
def fieldOp (cw : Word) : BitVec 4 := cw.extractLsb' 0 4

/-- Z0, bits 7:4: reserved, must be 0. -/
def fieldZ0 (cw : Word) : BitVec 4 := cw.extractLsb' 4 4

/-- IMM8, bits 15:8. -/
def fieldImm8 (cw : Word) : Byte := cw.extractLsb' 8 8

/-- Z1, bits 31:16: reserved, must be 0. -/
def fieldZ1 (cw : Word) : BitVec 16 := cw.extractLsb' 16 16

/-- The integer an s32 operand word stands for: `int(sext_32(w))` (R63, R9). -/
def s32 (w : Word) : Int := w.toInt

/-- The integer an operand word stands for in a realisation with that IDX_W: `int(sext_IDX_W(w))`. For IDX_W = 32 it is
`s32` (R63). A narrower operand is the word's low IDX_W bits, and a wider one the word sign-extended (DESIGN CHOICE,
log 4). -/
def operandInt (idxW : PNat) (w : Word) : Int := (w.signExtend idxW).toInt

/-- How many words the command has, from OP alone (R62). -/
def commandLength (cw : Word) : Nat := if fieldOp cw = 0x3#4 then 3 else 1

/-- Why a word spells no command (the cases of R66). -/
inductive IllegalReason where
  /-- Z0 or Z1 is not 0. -/
  | reservedField
  /-- OP is 0x0. -/
  | opcodeZero
  /-- OP is one of 0x6 to 0xF. -/
  | reservedOpcode
  /-- IMM8 is not 0 and the command has no immediate. -/
  | immediate
  /-- OP is 0x5 and the realisation has no TREAD. -/
  | noTread
deriving DecidableEq, Repr

/-- `legal(CW)` as R65 writes it. The operand words take no part. -/
def legal (hasTread : Bool) (cw : Word) : Bool :=
  fieldZ1 cw == 0#16 && fieldZ0 cw == 0#4 &&
    match (fieldOp cw).toNat with
    | 0x1 | 0x3 | 0x4 => fieldImm8 cw == 0#8
    | 0x2 => true
    | 0x5 => hasTread
    | _ => false

/-- A command without an immediate: its IMM8 must be 0 (R61). -/
def withoutImmediate (cw : Word) (i : Instr) : Except IllegalReason Instr :=
  if fieldImm8 cw = 0#8 then .ok i else .error .immediate

/-- The opcode map (R64): the command word 0 spells, with the operand words of UPDR, or why it spells none (R66). -/
def readCommand (cfg : Config) (cw offWord lenWord : Word) : Except IllegalReason Instr :=
  if fieldZ1 cw ≠ 0#16 ∨ fieldZ0 cw ≠ 0#4 then .error .reservedField
  else if fieldOp cw = 0x0#4 then .error .opcodeZero
  else if fieldOp cw = 0x1#4 then withoutImmediate cw .init
  else if fieldOp cw = 0x2#4 then .ok (.updb (fieldImm8 cw))
  else if fieldOp cw = 0x3#4 then withoutImmediate cw (.updr (operandInt cfg.idxW offWord) (operandInt cfg.idxW lenWord))
  else if fieldOp cw = 0x4#4 then withoutImmediate cw .value
  else if fieldOp cw = 0x5#4 then
    if cfg.hasTread then .ok (.tread (fieldImm8 cw)) else .error .noTread
  else .error .reservedOpcode

/-- What the stream at a command port begins with. -/
inductive Decoded where
  /-- A legal command, and the words after it. -/
  | command (i : Instr) (rest : List Word)
  /-- An illegal command, why, and the words after it (R66). -/
  | illegal (why : IllegalReason) (rest : List Word)
  /-- The words of the command are not all there (R62, R178). -/
  | incomplete
deriving DecidableEq, Repr

/-- A command of which all words are there: the command it spells, or why it is illegal. -/
def decodeComplete (cfg : Config) (cw offWord lenWord : Word) (rest : List Word) : Decoded :=
  match readCommand cfg cw offWord lenWord with
  | .ok i => .command i rest
  | .error why => .illegal why rest

/-- The decoder (R62, R65, R70): total on every stream of words. The length is decided first, so that an illegal
three-word command still consumes its operand words (R62). -/
def decode (cfg : Config) : List Word → Decoded
  | [] => .incomplete
  | cw :: rest =>
    if commandLength cw = 3 then
      match rest with
      | offWord :: lenWord :: rest' => decodeComplete cfg cw offWord lenWord rest'
      | _ => .incomplete
    else decodeComplete cfg cw 0#32 0#32 rest

/-! ### The encoder (R64, R71) -/

/-- Word 0 from its two used fields; Z0 and Z1 are 0 (R61). -/
def commandWord (op : BitVec 4) (imm8 : Byte) : Word := 0#16 ++ imm8 ++ 0#4 ++ op

/-- The operand word that holds an integer, two's complement (R63). -/
def s32Word (v : Int) : Word := BitVec.ofInt 32 v

/-- The words of a command (R64, R71). For a well-formed command `decode` reads them back. -/
def encode : Instr → List Word
  | .init => [commandWord 0x1#4 0#8]
  | .updb x => [commandWord 0x2#4 x]
  | .updr off len => [commandWord 0x3#4 0#8, s32Word off, s32Word len]
  | .value => [commandWord 0x4#4 0#8]
  | .tread index => [commandWord 0x5#4 index]

/-! ### The opcode table's numbering of bits -/

/-- The words of an instruction numbered as spec/opcode_table.json numbers its bits: word k is bits 32k+31..32k, every
bit from `nbits` on is 0, and there are as many words as OP says (R62). -/
def tableWords (nbits w : Nat) : List Word :=
  let v := w % 2 ^ nbits
  let cw := BitVec.ofNat 32 v
  if commandLength cw = 3 then [cw, BitVec.ofNat 32 (v / 2 ^ 32), BitVec.ofNat 32 (v / 2 ^ 64)]
  else [cw]

/-- The command the decoder reads from an instruction of the opcode table, in a realisation with the default
parameters of R5. -/
def decodeTableWord (nbits w : Nat) : Option Instr :=
  match decode Config.default (tableWords nbits w) with
  | .command i _ => some i
  | .illegal _ _ => none
  | .incomplete => none

end Sys2Proof
end

