-- ==== Sys2Proof/Machine/Generator.lean ====
section
/-! DEFINITION. The table generator: the function of R80, the table of R81, and the generator's own steps with its
working register and iteration count (R30 of spec/10_state.md, spec/40_table_generator.md). -/

namespace Sys2Proof.Machine

/-- The lookup table T: 256 entries of 64 bits (R22). -/
abbrev Table := Vector U64 256

/-- One iteration of R80: shift right by one, and XOR with POLY where the low bit was 1. -/
def genStep (poly r : U64) : U64 :=
  if r.getLsbD 0 then (r >>> 1) ^^^ poly else r >>> 1

/-- The working register after `k` iterations (R80). -/
def genRun (poly : U64) : Nat → U64 → U64
  | 0, r => r
  | k + 1, r => genRun poly k (genStep poly r)

/-- `gen(POLY, b)` (R80): 8 iterations from the byte, zero-extended. -/
def gen (poly : U64) (b : Byte) : U64 := genRun poly genIter (b.setWidth 64)

/-- The table a finished generation leaves: T[b] = gen(POLY, b) (R81). -/
def genTable (poly : U64) : Table := Vector.ofFn fun b => gen poly (BitVec.ofFin b)

/-- `T[i]` (R10, R41): every 8-bit index names an entry. -/
def Table.entry (t : Table) (i : Byte) : U64 := t[i.toNat]'i.isLt

/-- The fold function (R11): the low byte of the register, XORed with the byte, selects the entry; the rest of the
register is shifted in, zero-filling (R8). -/
def fold (t : Table) (c : U64) (x : Byte) : U64 :=
  Table.entry t ((x.setWidth 64 ^^^ c).extractLsb' 0 8) ^^^ (c >>> 8)

/-- `foldSeq` (R11): bytes are folded left to right. -/
def foldSeq (t : Table) (c : U64) : List Byte → U64
  | [] => c
  | x :: xs => foldSeq t (fold t c x) xs

/-- The generator's transient state (R30): the index being made, the iterations done of its 8, and the working
register. -/
structure GenState where
  idx : Nat
  iter : Nat
  r : U64
deriving DecidableEq, Repr

/-- The generator at the start of an index: `r = b`, zero-extended (R80). -/
def GenState.start (idx : Nat) : GenState := ⟨idx, 0, (BitVec.ofNat 8 idx).setWidth 64⟩

/-- What one iteration does: the generator's next state (`none` when all 256 entries are stored) and the table, into
which the eighth iteration of an index stores its result (R80, R81). -/
def GenState.advance (poly : U64) (g : GenState) (t : Table) : Option GenState × Table :=
  let r := genStep poly g.r
  if g.iter + 1 < genIter then (some ⟨g.idx, g.iter + 1, r⟩, t)
  else
    let t' := t.setIfInBounds g.idx r
    if g.idx < 255 then (some (GenState.start (g.idx + 1)), t') else (none, t')

end Sys2Proof.Machine
end

