-- ==== Sys2Proof/Machine/State.lean ====
section
/-! DEFINITION. The machine's state as plain data: every piece of state of spec/10_state.md, the ports and the source
buffers of spec/20_memory.md and spec/30_encoding.md, the reset sequence of spec/70_reset_and_hazards.md, and the host's
coming inputs. INVENTORY.md lists every field with its rule. -/

namespace Sys2Proof.Machine

/-- The names of the response codes (R69). Code 3 is reserved and never produced, so it has no name. -/
inductive RCode where
  /-- 0, OK: the command completed with the effect its rule gives. -/
  | ok
  /-- 1, ILLEGAL: the command ended in IllegalCommand. -/
  | illegal
  /-- 2, RANGE: the command ended in RangeError. -/
  | range
deriving DecidableEq, Repr

/-- The response of a command: RCODE and RDATA (R68). -/
structure Response where
  code : RCode
  data : U64
deriving DecidableEq, Repr

/-- The errors of the hardware; no other exists (R140, R141, R142). -/
inductive Err where
  /-- IllegalCommand (R140). -/
  | illegalCommand
  /-- RangeError (R141). -/
  | rangeError
deriving DecidableEq, Repr

/-- Bytes by index, sorted by index, without repeats and without the bytes an unlisted index reads as (log 13). -/
abbrev Memory := List Host.Cell

/-- The source buffer SRC as the host has bound it to an engine (R42). -/
structure Src where
  /-- `src_len`: the indices are 0 to `len - 1`. -/
  len : Nat
  /-- The bytes. -/
  mem : Memory
  /-- The host's writes that land while the engine's next UPDR is in progress, oldest first: index and byte
  (R55, R177). -/
  racing : List Host.Cell
deriving DecidableEq, Repr

/-- One update engine (R20, R23, R26, R152). -/
structure Engine where
  /-- CRC, the checksum register (R20). -/
  crc : U64
  /-- STATUS, which is also the output `status_o` (R23, R25). -/
  status : Word
  /-- The words taken of a command whose words are not all there yet (R62, R178). For the source buffer that command has
  not started (log 28). -/
  accepted : List Word
  /-- The command port: words presented and not taken yet, the first to be taken first (R60, R175). -/
  port : List Word
  /-- The response port: responses the host has not taken yet, oldest first (R60, R68). -/
  rsp : List Response
  /-- The source buffer bound for UPDR (R42). -/
  src : Src
deriving DecidableEq, Repr

/-- Where the machine is in the reset sequence (R170, R173, R175). -/
inductive Phase where
  /-- The reset input is asserted (R170). -/
  | asserted
  /-- Reset is released and the generator fills T; reset has not completed (R173). -/
  | generating (g : GenState)
  /-- Reset is complete (R171). -/
  | ready
deriving DecidableEq, Repr

/-- What the outside can do, and which engine moves. The order of a list of them is the order in which they take
effect: any order of several hosts' commands is some list (R176, log 5). -/
inductive Input where
  /-- Engine `k` takes its next command (R60). -/
  | serve (k : Nat)
  /-- A host presents words at engine `k`'s command port (R60, R176). -/
  | present (k : Nat) (ws : List Word)
  /-- The host binds a source buffer with its bytes to engine `k` (R42). -/
  | bindSrc (k : Nat) (bytes : List Byte)
  /-- The host writes a byte of engine `k`'s source buffer, with no UPDR in progress (R51, R55). -/
  | writeSrc (k index : Nat) (b : Byte)
  /-- The host writes a byte of engine `k`'s source buffer while the engine's next UPDR is in progress (R55, R177). -/
  | writeSrcDuring (k index : Nat) (b : Byte)
  /-- The host takes the oldest response from engine `k`'s response port (R60). -/
  | takeResponse (k : Nat)
  /-- The reset input is asserted (R170, R172). -/
  | assertReset
  /-- The reset input is released (R173, R174). -/
  | releaseReset
deriving DecidableEq, Repr

/-- The whole system. -/
structure State where
  /-- The realisation's parameters (R5). No step writes them (R29; log 1). -/
  cfg : Config
  /-- T, shared by every engine (R22). -/
  tbl : Table
  /-- The reset input and the generator (R30, R170, R173). -/
  phase : Phase
  /-- The engines (R26, R152). -/
  engines : List Engine
  /-- The engine whose command port is served (log 5). -/
  cur : Nat
  /-- The coming inputs, the next one first (log 5). -/
  agenda : List Input
  /-- How many UPDR commands have run: it tells the free bytes of one command from another's (R55, log 14). -/
  draws : Nat
deriving DecidableEq, Repr

/-- Why the machine stops. The hardware's own errors are no faults: they are next states (R144). -/
inductive Fault where
  /-- Raised where an input, or the state, names an engine that does not exist: the system has engines 0 to
  NUM_ENGINES - 1 (R152). Safe: the spec gives no such engine, and nothing can be proved of a machine past this
  (log 15). -/
  | noSuchEngine
deriving DecidableEq, Repr

/-- Why the model gives no meaning. -/
inductive Refusal where
  /-- Raised by an arm of `exec` for an instruction that has no meaning yet. Safe: nothing is proved of it. -/
  | notModelled (mnemonic : String)
  /-- Raised by the input `bindSrc` for a buffer longer than SRC_LEN_MAX, which the spec does not let a host bind and
  whose effect it does not give (R5, R42, D8). Safe (log 16). -/
  | srcTooLong
deriving DecidableEq, Repr

/-- No buffer bound yet: an empty one (DESIGN CHOICE, log 12). -/
def Src.unbound : Src := ⟨0, [], []⟩

/-- An engine right after reset, with nothing presented to it: CRC preset, STATUS 0, no command in progress, no
response pending (R33, R171). -/
def Engine.reset : Engine where
  crc := preset
  status := 0#32
  accepted := []
  port := []
  rsp := []
  src := Src.unbound

/-- A realisation right after its first reset: the table complete, every engine at its reset values (R33, R171). -/
def State.resetOf (cfg : Config) : State where
  cfg := cfg
  tbl := genTable cfg.poly
  phase := .ready
  engines := List.replicate cfg.numEngines Engine.reset
  cur := 0
  agenda := []
  draws := 0

/-- The machine right after reset, with the default parameters of R5 (R33, R171; logs 2 and 3). -/
def State.reset : State := State.resetOf Config.default

end Sys2Proof.Machine
end

