-- ==== Sys2Proof/Machine/Flags.lean ====
section
/-! DEFINITION. The STATUS register's bits (R23 to R25 of spec/10_state.md) and the numbers of the response codes (R69 of
spec/30_encoding.md). -/

namespace Sys2Proof.Machine

/-- The STATUS bit an error sets, as a mask: ERR_RANGE is bit 0, ERR_ILLEGAL is bit 1 (R23). -/
def Err.statusMask : Err → Word
  | .rangeError => 0x1#32
  | .illegalCommand => 0x2#32

/-- `STATUS.f <- 1`: the bit is set and every other bit stays (R10, R24). -/
def setStatus (status : Word) (err : Err) : Word := status ||| err.statusMask

/-- STATUS.ERR_RANGE (R23). -/
def errRange (status : Word) : Bool := status.getLsbD 0

/-- STATUS.ERR_ILLEGAL (R23). -/
def errIllegal (status : Word) : Bool := status.getLsbD 1

/-- STATUS[31:2], which always reads as 0 (R23). -/
def statusReserved (status : Word) : BitVec 30 := status.extractLsb' 2 30

/-- The response code an error is reported with (R140, R141). -/
def Err.code : Err → RCode
  | .rangeError => .range
  | .illegalCommand => .illegal

/-- The 2-bit code of a response (R69). -/
def RCode.bits : RCode → BitVec 2
  | .ok => 0#2
  | .illegal => 1#2
  | .range => 2#2

/-- What a 2-bit code means; code 3 is reserved and means nothing (R69, I11). -/
def RCode.ofBits (b : BitVec 2) : Option RCode :=
  if b = 0#2 then some .ok
  else if b = 1#2 then some .illegal
  else if b = 2#2 then some .range
  else none

end Sys2Proof.Machine
end

