-- ==== Sys2Proof/Machine/Operands.lean ====
section
/-! DEFINITION. UPDR's operands: the source buffer it reads, the range they select and the two range policies (R42 of
spec/20_memory.md, R106 to R108 of spec/41_update_engine.md). IMM8, OFF and LEN are read by the decoder (R61, R63). -/

namespace Sys2Proof.Machine

/-! ### Bytes by index -/

/-- The byte at an index. -/
def Memory.read : Memory → Nat → Byte
  | [], _ => unlistedByte
  | (a, b) :: rest, i => if a = i then b else Memory.read rest i

/-- Set the byte at an index, keeping the canonical form: the list stays sorted, and a byte equal to what an unlisted
index reads as is not listed. -/
def Memory.write : Memory → Nat → Byte → Memory
  | [], i, v => if v = unlistedByte then [] else [(i, v)]
  | (a, b) :: rest, i, v =>
    if i < a then if v = unlistedByte then (a, b) :: rest else (i, v) :: (a, b) :: rest
    else if i = a then if v = unlistedByte then rest else (i, v) :: rest
    else (a, b) :: Memory.write rest i v

/-- The bytes of a sequence from an index on. -/
def Memory.ofBytes : Nat → List Byte → Memory
  | _, [] => []
  | i, b :: bs => if b = unlistedByte then Memory.ofBytes (i + 1) bs else (i, b) :: Memory.ofBytes (i + 1) bs

/-- The canonical form: indices strictly rising, no entry equal to what an unlisted index reads as. -/
abbrev Memory.wf (m : Memory) : Prop :=
  m.Pairwise (fun x y => x.1 < y.1) ∧ ∀ c ∈ m, c.2 ≠ unlistedByte

/-! ### The source buffer -/

/-- Bind a sequence of bytes at indices 0 to length - 1 (R42). Writes that were to race on the old buffer are gone. -/
def Src.bind (bytes : List Byte) : Src := ⟨bytes.length, Memory.ofBytes 0 bytes, []⟩

/-- The host sets a byte of the buffer; an index that the buffer does not have is no byte of it. -/
def Src.write (src : Src) (i : Nat) (b : Byte) : Src :=
  if i < src.len then { src with mem := Memory.write src.mem i b } else src

/-- An index the host writes while the engine's next UPDR is in progress (R55). -/
def Src.races (src : Src) (i : Nat) : Bool := src.racing.any fun c => c.1 == i

/-- `SrcRead(i)` (R42): the byte at the index, or any byte where the host writes it while the command is in progress
(R55). `draw` names the command. -/
def srcRead (draw : Nat) (src : Src) (i : Nat) : Byte :=
  if src.races i then Config.freeByte draw i else Memory.read src.mem i

/-- The buffer after an UPDR: the host's racing writes have landed, in their order (R55, log 24). -/
def Src.settle (src : Src) : Src :=
  { src.racing.foldl (fun s c => s.write c.1 c.2) src with racing := [] }

/-! ### The range -/

/-- `validRange(off, len, src_len)` (R106), on exact integers. -/
def validRange (off len : Int) (srcLen : Nat) : Bool := decide (0 ≤ off ∧ 0 ≤ len ∧ off + len ≤ srcLen)

/-- The bytes at `start`, `start + 1`, …, `start + count - 1`, in that order (R45). -/
def bytesFrom (rd : Nat → Byte) : Nat → Nat → List Byte
  | _, 0 => []
  | start, count + 1 => rd start :: bytesFrom rd (start + 1) count

/-- The loop of R108: fold at `i`, `i + 1`, … (`count` indices), stopping at the first index outside the buffer with the
folds made so far. The Bool says that no index was outside. -/
def foldUntil (t : Table) (rd : Nat → Byte) (srcLen : Nat) : Nat → Int → U64 → U64 × Bool
  | 0, _, c => (c, true)
  | count + 1, i, c =>
    if i < 0 ∨ (srcLen : Int) ≤ i then (c, false)
    else foldUntil t rd srcLen count (i + 1) (fold t c (rd i.toNat))

/-- UPDR's effect on the checksum, and whether the range was good (R107 under CHECK_FIRST, R108 under
FOLD_UNTIL_FAULT). -/
def updateRange (policy : RangePolicy) (t : Table) (rd : Nat → Byte) (srcLen : Nat) (off len : Int) (c : U64) :
    U64 × Bool :=
  match policy with
  | .checkFirst =>
    if validRange off len srcLen then (foldSeq t c (bytesFrom rd off.toNat len.toNat), true) else (c, false)
  | .foldUntilFault => foldUntil t rd srcLen len.toNat off c

end Sys2Proof.Machine
end

