-- ==== Sys2Proof/Machine/Ops.lean ====
section
/-! DEFINITION. The shared operations: what a command does to its engine goes through `State.onEngine`, a response
through `Engine.respond`, an error through `Engine.raise` (R10 of spec/00_scope.md, R68 of spec/30_encoding.md, R144 of
spec/60_exceptions.md). -/

namespace Sys2Proof.Machine

/-! ### One engine of the system -/

/-- The system with engine `k` replaced. -/
def State.setEngineAt (s : State) (k : Nat) (e : Engine) : State := { s with engines := s.engines.set k e }

/-- The system with the served engine replaced. -/
def State.setEngine (s : State) (e : Engine) : State := s.setEngineAt s.cur e

/-- Change engine `k` alone; there must be such an engine (R152, log 15). -/
def State.onEngineAt (s : State) (k : Nat) (f : Engine → Engine) : Host.Outcome State Fault Refusal :=
  match s.engines[k]? with
  | some e => .next (s.setEngineAt k (f e))
  | none => .fault .noSuchEngine

/-- Change the served engine alone: a command writes only its own engine's state (R44, R103). -/
def State.onEngine (s : State) (f : Engine → Engine) : Host.Outcome State Fault Refusal := s.onEngineAt s.cur f

/-- The status output: `status_o[31:0]` is STATUS, at all times (R25). -/
def Engine.statusOutput (e : Engine) : Word := e.status

/-! ### Ending a command -/

/-- `respond(code, data)` (R10, R68): the response is delivered behind the earlier ones (R60). -/
def Engine.respond (e : Engine) (code : RCode) (data : U64) : Engine := { e with rsp := e.rsp ++ [⟨code, data⟩] }

/-- `raise`: the entry of an error, the one for both (R144). The status bit is set (R140, R141), the error response
with data 0 is delivered (R68), and nothing else changes: no state is saved, no mode changes, control goes nowhere, and
the engine is ready for the next command. There is no return from it (R146). -/
def Engine.raise (e : Engine) (err : Err) : Engine :=
  Engine.respond { e with status := setStatus e.status err } err.code 0#64

end Sys2Proof.Machine
end

