-- ==== Sys2Proof/Machine/Instance.lean ====
section
/-! DEFINITION. The commands that begin and read a checksum: INIT (R101) and VALUE (R110 of spec/41_update_engine.md). -/

namespace Sys2Proof.Machine

/-- INIT (R101): CRC <- all ones, then (OK, 0). STATUS is not cleared (R24). -/
def execInit (s : State) : Host.Outcome State Fault Refusal :=
  s.onEngine fun e => Engine.respond { e with crc := preset } .ok 0#64

/-- VALUE (R110): (OK, ~CRC); CRC and STATUS stay. -/
def execValue (s : State) : Host.Outcome State Fault Refusal :=
  s.onEngine fun e => e.respond .ok (~~~e.crc)

end Sys2Proof.Machine
end

