-- ==== Sys2Proof/Machine/TableRead.lean ====
section
/-! DEFINITION. The command that reads the table: TREAD (R85 of spec/40_table_generator.md). -/

namespace Sys2Proof.Machine

/-- TREAD (R85): (OK, T[i]), or IllegalCommand in a realisation without it (R66, log 26). -/
def execTread (index : Byte) (s : State) : Host.Outcome State Fault Refusal :=
  s.onEngine fun e => if s.cfg.hasTread then e.respond .ok (s.tbl.entry index) else e.raise .illegalCommand

end Sys2Proof.Machine
end

