-- ==== Sys2Proof/Machine/Update.lean ====
section
/-! DEFINITION. The commands that fold bytes into the checksum: UPDB (R104) and UPDR (R106 to R108 of
spec/41_update_engine.md). -/

namespace Sys2Proof.Machine

/-- UPDB (R104): CRC <- fold(CRC, x), then (OK, 0). -/
def execUpdb (x : Byte) (s : State) : Host.Outcome State Fault Refusal :=
  s.onEngine fun e => Engine.respond { e with crc := fold s.tbl e.crc x } .ok 0#64

/-- UPDR on its engine (R107, R108): the register the range policy gives, then (OK, 0) or RangeError. `src_len` and
the bytes are those of the buffer as it stands at the start (R43), less the bytes the host writes meanwhile (R55), which
are in the buffer afterwards. -/
def updrEngine (policy : RangePolicy) (t : Table) (draw : Nat) (off len : Int) (e : Engine) : Engine :=
  let result := updateRange policy t (srcRead draw e.src) e.src.len off len e.crc
  let e' := { e with crc := result.1, src := e.src.settle }
  if result.2 then e'.respond .ok 0#64 else e'.raise .rangeError

/-- UPDR (R107 under CHECK_FIRST, R108 under FOLD_UNTIL_FAULT). The counter of the free bytes advances (log 14). -/
def execUpdr (off len : Int) (s : State) : Host.Outcome State Fault Refusal :=
  State.onEngine { s with draws := s.draws + 1 } (updrEngine s.cfg.rangePolicy s.tbl s.draws off len)

end Sys2Proof.Machine
end

