-- ==== Sys2Proof/Machine/Dispatch.lean ====
section
/-! DEFINITION. From a command to its meaning, one arm for each constructor (R64 of spec/30_encoding.md). -/

namespace Sys2Proof.Machine

def exec (i : Instr) (s : State) : Host.Outcome State Fault Refusal :=
  match i with
  | .init => Sys2Proof.Machine.execInit s
  | .updb x => Sys2Proof.Machine.execUpdb x s
  | .updr off len => Sys2Proof.Machine.execUpdr off len s
  | .value => Sys2Proof.Machine.execValue s
  | .tread index => Sys2Proof.Machine.execTread index s

end Sys2Proof.Machine
end

