-- ==== Sys2Proof/Machine/Inputs.lean ====
section
/-! DEFINITION. What the hosts do to the machine: the ports, the source buffers and the reset input (R42, R55, R60, R170 to
R176), and the generator's own step (R82, R173). -/

namespace Sys2Proof.Machine

/-! ### Reset -/

/-- An engine in reset: the registers at their reset values, the words of a command in progress and the responses gone
(R33, R171, R172). Words that were not taken wait at the port (R175, log 7), and the source buffer is the host's (log 12). -/
def Engine.inReset (e : Engine) : Engine :=
  { e with crc := preset, status := 0#32, accepted := [], rsp := [] }

/-- The reset input is asserted: every engine is in reset, whatever it was doing (R170, R172; log 10). -/
def State.assertReset (s : State) : State :=
  { s with phase := .asserted, engines := s.engines.map Engine.inReset }

/-- The reset input is released: the generator starts at index 0, and reset completes when it has finished (R173).
Without an asserted reset there is nothing to release (log 25). -/
def State.releaseReset (s : State) : State :=
  match s.phase with
  | .asserted => { s with phase := .generating (GenState.start 0) }
  | .generating _ => s
  | .ready => s

/-- One iteration of the generator; after the last one reset is complete (R80, R173). -/
def State.generate (s : State) (g : GenState) : State :=
  match g.advance s.cfg.poly s.tbl with
  | (some g', t) => { s with phase := .generating g', tbl := t }
  | (none, t) => { s with phase := .ready, tbl := t }

/-! ### The ports and the source buffers -/

/-- Words behind those that wait at the port (R60). -/
def Engine.present (e : Engine) (ws : List Word) : Engine := { e with port := e.port ++ ws }

/-- The oldest response leaves the port (log 8). -/
def Engine.takeResponse (e : Engine) : Engine := { e with rsp := e.rsp.tail }

/-- What one input does, but for `serve`, which only says whose turn it is: the step goes on with that engine. An UPDR that
waits for its operand words has not started for the source buffer: a host that writes or binds the buffer in that wait
(`writeSrc`, `bindSrc`) does so before the command, which reads what it left (DESIGN CHOICE, log 28). -/
def State.accept (s : State) (x : Input) : Host.Outcome State Fault Refusal :=
  match x with
  | .serve k => if k < s.engines.length then .next { s with cur := k } else .fault .noSuchEngine
  | .present k ws => s.onEngineAt k fun e => e.present ws
  | .bindSrc k bytes =>
    if bytes.length ≤ s.cfg.srcLenMax then s.onEngineAt k fun e => { e with src := Src.bind bytes }
    else .refused .srcTooLong
  | .writeSrc k index b => s.onEngineAt k fun e => { e with src := e.src.write index b }
  | .writeSrcDuring k index b =>
    s.onEngineAt k fun e => { e with src := { e.src with racing := e.src.racing ++ [(index, b)] } }
  | .takeResponse k => s.onEngineAt k Engine.takeResponse
  | .assertReset => .next s.assertReset
  | .releaseReset => .next s.releaseReset

end Sys2Proof.Machine
end

