-- ==== Sys2Proof/Machine/Serve.lean ====
section
/-! DEFINITION. An engine takes its next command: the words are taken from the command port, decoded, and the command runs,
as one atomic step (R50, R60, R62, R65, R181). -/

namespace Sys2Proof.Machine

/-- The stream the engine decodes: the words it has taken of an incomplete command, then those at the port (R62). -/
def Engine.stream (e : Engine) : List Word := e.accepted ++ e.port

/-- The engine after it has taken a whole command: the words after it wait at the port. -/
def Engine.taken (e : Engine) (rest : List Word) : Engine := { e with accepted := [], port := rest }

/-- The engine after it has taken the words of a command that is not all there; it waits for the others (R62, R178; log 6). -/
def Engine.held (e : Engine) : Engine := { e with accepted := e.stream, port := [] }

/-- The next command of the served engine (R60): a legal one is executed, an illegal one ends in IllegalCommand (R66),
and an incomplete one holds the engine (R178). With no words at the port nothing changes. -/
def State.runCommand (s : State) : Host.Outcome State Fault Refusal :=
  match s.engines[s.cur]? with
  | none => .fault .noSuchEngine
  | some e =>
    match decode s.cfg e.stream with
    | .command i rest => exec i (s.setEngine (e.taken rest))
    | .illegal _ rest => (s.setEngine (e.taken rest)).onEngine fun e => e.raise .illegalCommand
    | .incomplete => .next (s.setEngine e.held)

/-- The machine goes on by itself: it waits while reset is asserted (R170), makes the table (R173), or, once reset is
complete, the served engine takes a command (R175; logs 6 and 22). -/
def State.serve (s : State) : Host.Outcome State Fault Refusal :=
  match s.phase with
  | .asserted => .next s
  | .generating g => .next (s.generate g)
  | .ready => s.runCommand

/-- One input is taken from the agenda; a `serve` goes on with the engine it names, and so does an empty agenda with the
engine that is served. -/
def State.advance (s : State) : Host.Outcome State Fault Refusal :=
  match s.agenda with
  | [] => s.serve
  | x :: rest =>
    match State.accept { s with agenda := rest } x with
    | .next s' =>
      match x with
      | .serve _ => s'.serve
      | .present _ _ => .next s'
      | .bindSrc _ _ => .next s'
      | .writeSrc _ _ _ => .next s'
      | .writeSrcDuring _ _ _ => .next s'
      | .takeResponse _ => .next s'
      | .assertReset => .next s'
      | .releaseReset => .next s'
    | .fault r => .fault r
    | .refused r => .refused r

/-- The machine with a command's words first at the served engine's port, and that engine next to move, reset complete
(log 17). -/
def State.withCommandWords (s : State) (ws : List Word) : State :=
  { s with
    phase := .ready
    agenda := .serve s.cur :: s.agenda
    engines := s.engines.modify s.cur fun e => { e with accepted := [], port := ws ++ e.port } }

end Sys2Proof.Machine
end

