-- ==== Sys2Proof/Machine/Step.lean ====
section
/-! DEFINITION. One step of the machine. -/

namespace Sys2Proof.Machine

/-- One step: an input, a command (R50, R181), or an iteration of the table generator (R80). -/
def step (s : State) : Host.Outcome State Fault Refusal := s.advance

/-- `s` with an instruction of the opcode table as the next command of the served engine (log 17). -/
def State.withFetchWord (s : State) (nbits w : Nat) : State := s.withCommandWords (tableWords nbits w)

end Sys2Proof.Machine
end

