-- ==== Sys2Proof/Machine/Assembler.lean ====
section
/-! DEFINITION. The assembler syntax and the pseudo-instructions (R71, R72 of spec/30_encoding.md): from the text of a
program to the inputs of a host that issues it to one engine. A command line is its words presented and the engine's
turn to take them; a `.src` line binds the source buffer for the lines after it (log 18). -/

namespace Sys2Proof.Machine

/-! ### Tokens -/

/-- A token of a line. -/
inductive Token where
  /-- A mnemonic, a directive or a number. -/
  | name (cs : List Char)
  /-- A text between double quotes. -/
  | text (cs : List Char)
  /-- A character literal. -/
  | character (c : Char)
  | comma
  | leftBracket
  | rightBracket
deriving DecidableEq, Repr

/-- The double quote, around a text. -/
def doubleQuote : Char := Char.ofNat 34

/-- The apostrophe, around a character literal. -/
def apostrophe : Char := Char.ofNat 39

/-- The characters of a name read so far (the last one first), as a token before `rest`. -/
def endName (acc : List Char) (rest : List Token) : List Token :=
  if acc = [] then rest else .name acc.reverse :: rest

/-- What the lexer is inside of. -/
inductive LexMode where
  /-- Between tokens, or in a name whose characters so far are given, the last one first. -/
  | plain (acc : List Char)
  /-- In a text whose characters so far are given, the last one first. -/
  | inText (acc : List Char)
  /-- After the apostrophe that opens a character literal. -/
  | charOpen
  /-- After the character of a character literal. -/
  | charClose (c : Char)
  /-- In a comment (R71: `;` starting a comment). -/
  | comment
deriving DecidableEq, Repr

/-- The tokens of a line; none where a quote is left open. -/
def lexFrom : LexMode → List Char → Option (List Token)
  | .plain acc, [] => some (endName acc [])
  | .inText _, [] => none
  | .charOpen, [] => none
  | .charClose _, [] => none
  | .comment, [] => some []
  | .plain acc, c :: cs =>
    if c = ';' then (lexFrom .comment cs).map (endName acc)
    else if c = doubleQuote then (lexFrom (.inText []) cs).map (endName acc)
    else if c = apostrophe then (lexFrom .charOpen cs).map (endName acc)
    else if c = ',' then (lexFrom (.plain []) cs).map fun ts => endName acc (.comma :: ts)
    else if c = '[' then (lexFrom (.plain []) cs).map fun ts => endName acc (.leftBracket :: ts)
    else if c = ']' then (lexFrom (.plain []) cs).map fun ts => endName acc (.rightBracket :: ts)
    else if c = ' ' ∨ c = '\t' ∨ c = '\r' then (lexFrom (.plain []) cs).map (endName acc)
    else lexFrom (.plain (c :: acc)) cs
  | .inText acc, c :: cs =>
    if c = doubleQuote then (lexFrom (.plain []) cs).map fun ts => .text acc.reverse :: ts
    else lexFrom (.inText (c :: acc)) cs
  | .charOpen, c :: cs => lexFrom (.charClose c) cs
  | .charClose c, q :: cs =>
    if q = apostrophe then (lexFrom (.plain []) cs).map fun ts => .character c :: ts else none
  | .comment, _ :: cs => lexFrom .comment cs

/-- The lines of a program, split at line ends; `acc` is the line so far, its last character first. -/
def linesFrom (acc : List Char) : List Char → List (List Char)
  | [] => [acc.reverse]
  | c :: cs => if c = '\n' then acc.reverse :: linesFrom [] cs else linesFrom (c :: acc) cs

/-! ### Operands (R71) -/

/-- A digit's value, in decimal and hexadecimal. -/
def digitValue (c : Char) : Option Nat :=
  if '0' ≤ c ∧ c ≤ '9' then some (c.toNat - 48)
  else if 'a' ≤ c ∧ c ≤ 'f' then some (c.toNat - 87)
  else if 'A' ≤ c ∧ c ≤ 'F' then some (c.toNat - 55)
  else none

/-- The number a run of digits spells; none for a character that is no digit of the base. -/
def digitsFrom (base : Nat) : Nat → List Char → Option Nat
  | acc, [] => some acc
  | acc, c :: cs =>
    match digitValue c with
    | some d => if d < base then digitsFrom base (acc * base + d) cs else none
    | none => none

/-- A number that has at least one digit. -/
def digits (base : Nat) (cs : List Char) : Option Nat := if cs = [] then none else digitsFrom base 0 cs

/-- A number of the syntax. -/
inductive Literal where
  /-- Decimal, a minus sign allowed. -/
  | decimal (v : Int)
  /-- `0x`-prefixed hexadecimal. -/
  | hexadecimal (v : Nat)
deriving DecidableEq, Repr

/-- Read a number. -/
def readLiteral : List Char → Option Literal
  | [] => none
  | [c] => (digits 10 [c]).map fun n => .decimal n
  | c :: d :: cs =>
    if c = '0' ∧ d = 'x' then (digits 16 cs).map .hexadecimal
    else if c = '-' then (digits 10 (d :: cs)).map fun n => .decimal (-n)
    else (digits 10 (c :: d :: cs)).map fun n => .decimal n

/-- The ASCII code of a character; none for a character that has none. -/
def asciiByte (c : Char) : Option Byte := if c.toNat < 128 then some (BitVec.ofNat 8 c.toNat) else none

/-- The ASCII bytes of a text. -/
def asciiBytes : List Char → Option (List Byte)
  | [] => some []
  | c :: cs =>
    match asciiByte c, asciiBytes cs with
    | some b, some bs => some (b :: bs)
    | some _, none => none
    | none, _ => none

/-- A byte or index operand: 0..255 in decimal or hexadecimal, or a character literal (R71). -/
def byteOperand : Token → Option Byte
  | .name cs =>
    match readLiteral cs with
    | some (.decimal v) => if 0 ≤ v ∧ v < 256 then some (BitVec.ofInt 8 v) else none
    | some (.hexadecimal v) => if v < 256 then some (BitVec.ofNat 8 v) else none
    | none => none
  | .character c => asciiByte c
  | .text _ => none
  | .comma => none
  | .leftBracket => none
  | .rightBracket => none

/-- An offset or length operand: -2^31..2^31-1; a hexadecimal literal from 0x80000000 on is the s32 of the same bits
(R71). -/
def rangeOperand : Token → Option Int
  | .name cs =>
    match readLiteral cs with
    | some (.decimal v) => if fitsS32 v then some v else none
    | some (.hexadecimal v) => if v < 2 ^ 32 then some (s32 (BitVec.ofNat 32 v)) else none
    | none => none
  | .character _ => none
  | .text _ => none
  | .comma => none
  | .leftBracket => none
  | .rightBracket => none

/-- `b0, b1, …]`: the bytes of a `.src` list, up to the bracket that ends it. -/
def byteList : List Token → Option (List Byte)
  | [.rightBracket] => some []
  | [t, .rightBracket] => (byteOperand t).map fun b => [b]
  | t :: .comma :: rest =>
    match byteOperand t, byteList rest with
    | some b, some (b' :: bs) => some (b :: b' :: bs)
    | some _, some [] => none
    | some _, none => none
    | none, _ => none
  | _ => none

/-! ### Lines -/

/-- A line of a program (R71, R72). -/
inductive AsmLine where
  /-- Nothing but a comment. -/
  | blank
  /-- One of the five commands. -/
  | command (i : Instr)
  /-- UPDALL. -/
  | updAll
  /-- UPDSTR with its text. -/
  | updStr (text : List Byte)
  /-- `.src`, in either form. -/
  | src (bytes : List Byte)
  /-- `.word`: a raw command word (spec/95_test_vectors.md, section 4). -/
  | word (w : Word)
deriving DecidableEq, Repr

/-- The line some tokens spell; none for a line of no form of R71, R72. -/
def parseLine : List Token → Option AsmLine
  | [] => some .blank
  | [.name m] =>
    if m = ['I', 'N', 'I', 'T'] then some (.command .init)
    else if m = ['V', 'A', 'L', 'U', 'E'] then some (.command .value)
    else if m = ['U', 'P', 'D', 'A', 'L', 'L'] then some .updAll
    else none
  | [.name m, .text cs] =>
    if m = ['U', 'P', 'D', 'S', 'T', 'R'] then (asciiBytes cs).map .updStr
    else if m = ['.', 's', 'r', 'c'] then (asciiBytes cs).map .src
    else none
  | [.name m, t] =>
    if m = ['U', 'P', 'D', 'B'] then (byteOperand t).map fun b => .command (.updb b)
    else if m = ['T', 'R', 'E', 'A', 'D'] then (byteOperand t).map fun b => .command (.tread b)
    else if m = ['.', 'w', 'o', 'r', 'd'] then
      match t with
      | .name cs =>
        match readLiteral cs with
        | some (.hexadecimal v) => if v < 2 ^ 32 then some (.word (BitVec.ofNat 32 v)) else none
        | some (.decimal _) => none
        | none => none
      | _ => none
    else none
  | .name m :: .leftBracket :: rest =>
    if m = ['.', 's', 'r', 'c'] then (byteList rest).map .src else none
  | [.name m, off, .comma, len] =>
    if m = ['U', 'P', 'D', 'R'] then
      match rangeOperand off, rangeOperand len with
      | some o, some l => some (.command (.updr o l))
      | some _, none => none
      | none, _ => none
    else none
  | _ => none

/-- The line a text spells. -/
def readLine (cs : List Char) : Option AsmLine := (lexFrom (.plain []) cs).bind parseLine

/-! ### Programs -/

/-- A command issued to engine `k`: its words presented, and the engine's turn. -/
def issue (k : Nat) (ws : List Word) : List Input := [.present k ws, .serve k]

/-- A command line's inputs; an operand out of range, which is that of an s32, is an assembly error (R71). -/
def issueCommand (k : Nat) (i : Instr) : Option (List Input) :=
  if i.wf 32 then some (issue k (encode i)) else none

/-- A line's inputs to engine `k`, and the length of the buffer bound after it (none before the first `.src`). -/
def assembleLine (k : Nat) (srcLen : Option Nat) : AsmLine → Option (List Input × Option Nat)
  | .blank => some ([], srcLen)
  | .command i => (issueCommand k i).map fun xs => (xs, srcLen)
  | .updAll =>
    match srcLen with
    | some n => (issueCommand k (Instr.updAll n)).map fun xs => (xs, srcLen)
    | none => none
  | .updStr text => some ((Instr.updStr text).flatMap fun i => issue k (encode i), srcLen)
  | .src bytes => some ([.bindSrc k bytes], some bytes.length)
  | .word w => some (issue k [w], srcLen)

/-- A program's inputs to engine `k`, line by line; none where a line is in error. -/
def assembleFrom (k : Nat) (srcLen : Option Nat) : List AsmLine → Option (List Input)
  | [] => some []
  | l :: ls =>
    match assembleLine k srcLen l with
    | some (xs, srcLen') => (assembleFrom k srcLen' ls).map fun ys => xs ++ ys
    | none => none

/-- The lines of a text. -/
def readLines : List (List Char) → Option (List AsmLine)
  | [] => some []
  | l :: ls =>
    match readLine l, readLines ls with
    | some a, some as => some (a :: as)
    | some _, none => none
    | none, _ => none

/-- A program's text, assembled for engine `k` (R71, R72). -/
def assemble (k : Nat) (text : List Char) : Option (List Input) :=
  (readLines (linesFrom [] text)).bind (assembleFrom k none)

end Sys2Proof.Machine
end

