-- ==== Sys2Proof/Safety.lean ====
section
/-! DEFINITION. The terms claims are stated in: the invariant of the machine, the inputs a host may give, and sequences of
commands. -/

namespace Sys2Proof.Machine

/-! ### The invariant -/

/-- A source buffer in its canonical form: only bytes it has are listed, and it is no longer than a host may bind
(R42, R5). -/
def Src.Inv (maxLen : Nat) (src : Src) : Prop :=
  src.len ≤ maxLen ∧ Memory.wf src.mem ∧ ∀ c ∈ src.mem, c.1 < src.len

/-- An engine as some run leaves it: the reserved STATUS bits are 0 (R23), what it has taken is no whole command (R62),
and its source buffer is in its canonical form. -/
def Engine.Inv (cfg : Config) (e : Engine) : Prop :=
  statusReserved e.status = 0#30 ∧ decode cfg e.accepted = .incomplete ∧ e.src.Inv cfg.srcLenMax

/-- What T holds: every entry once reset is complete (R81, R171); while the generator runs, the entries below its index,
and its working register is that of R80. While reset is asserted T is not read, and nothing is said of it. -/
def tableInv (poly : U64) (t : Table) : Phase → Prop
  | .asserted => True
  | .generating g =>
    g.idx < 256 ∧ g.iter < genIter ∧ g.r = genRun poly g.iter ((BitVec.ofNat 8 g.idx).setWidth 64) ∧
      ∀ b : Byte, b.toNat < g.idx → t.entry b = gen poly b
  | .ready => t = genTable poly

/-- The machine's invariant. -/
def State.Inv (s : State) : Prop :=
  s.engines.length = s.cfg.numEngines ∧ s.cur < s.engines.length ∧ (∀ e ∈ s.engines, e.Inv s.cfg) ∧
    tableInv s.cfg.poly s.tbl s.phase

/-! ### Inputs -/

/-- An input a host may give: it names an engine there is (R152), and a buffer it binds is not longer than SRC_LEN_MAX
(R42). -/
def Input.allowed (cfg : Config) : Input → Bool
  | .serve k => decide (k < cfg.numEngines)
  | .present k _ => decide (k < cfg.numEngines)
  | .bindSrc k bytes => decide (k < cfg.numEngines ∧ bytes.length ≤ cfg.srcLenMax)
  | .writeSrc k _ _ => decide (k < cfg.numEngines)
  | .writeSrcDuring k _ _ => decide (k < cfg.numEngines)
  | .takeResponse k => decide (k < cfg.numEngines)
  | .assertReset => true
  | .releaseReset => true

/-- The engine whose port, buffer or responses an input is about. -/
def Input.engine? : Input → Option Nat
  | .serve _ => none
  | .present k _ => some k
  | .bindSrc k _ => some k
  | .writeSrc k _ _ => some k
  | .writeSrcDuring k _ _ => some k
  | .takeResponse k => some k
  | .assertReset => none
  | .releaseReset => none

/-! ### A command at the port -/

/-- The next step of `s` is the turn of `u`'s served engine, with `u` the state in which the turn is given: `s` itself where
nothing is on the agenda, and otherwise `s` with the engine that the agenda names served. -/
def State.turn (s u : State) : Prop :=
  (s.agenda = [] ∧ u = s) ∨
    ∃ k more, s.agenda = .serve k :: more ∧ k < s.engines.length ∧ u = { s with agenda := more, cur := k }

/-- Reset is complete and the next step of `s` is the turn of engine `e`, the one served in `u`, which is to decode the
stream `ws`. -/
def State.awaits (s u : State) (e : Engine) (ws : List Word) : Prop :=
  s.turn u ∧ u.phase = .ready ∧ u.engines[u.cur]? = some e ∧ e.stream = ws

/-- The step of `s` takes the words before `rest` from engine `e`, the one served in `u`, and ends in IllegalCommand:
ERR_ILLEGAL is set, the response is (ILLEGAL, 0), and nothing else changes (R66, R140). -/
def State.endsInIllegalCommand (s u : State) (e : Engine) (rest : List Word) : Prop :=
  step s = .next (u.setEngine
    { e with status := e.status ||| 0x2#32, rsp := e.rsp ++ [⟨.illegal, 0#64⟩], accepted := [], port := rest })

/-! ### Sequences of commands -/

/-- The commands of a list, one after another, on the served engine. -/
def runCommands : List Instr → State → Host.Outcome State Fault Refusal
  | [], s => .next s
  | i :: is, s =>
    match exec i s with
    | .next t => runCommands is t
    | .fault r => .fault r
    | .refused r => .refused r

/-- The bytes an update command folds where it succeeds, reading an unchanging source buffer; none for a command that is
no update, and for an UPDR that ends in RangeError. An UPDR succeeds on a valid range, and under FOLD_UNTIL_FAULT also
where it has no index to read, its range being valid or not (R104, R107, R108). -/
def updateBytes (policy : RangePolicy) (src : Src) : Instr → Option (List Byte)
  | .init => none
  | .updb x => some [x]
  | .updr off len =>
    if validRange off len src.len then some (bytesFrom (Memory.read src.mem) off.toNat len.toNat)
    else if policy = .foldUntilFault ∧ len ≤ 0 then some []
    else none
  | .value => none
  | .tread _ => none

/-- The bytes a list of update commands folds, joined (R112). -/
def updatesBytes (policy : RangePolicy) (src : Src) : List Instr → Option (List Byte)
  | [] => some []
  | i :: is =>
    match updateBytes policy src i, updatesBytes policy src is with
    | some bs, some rest => some (bs ++ rest)
    | some _, none => none
    | none, _ => none

/-- A command that folds no byte, with a source buffer of the given length: no update, or an UPDR that reads no index
(R107, R108). -/
def Instr.foldsNothing (cfg : Config) (srcLen : Nat) : Instr → Prop
  | .init => True
  | .updb _ => False
  | .updr off len =>
    off < 0 ∨ len ≤ 0 ∨ (srcLen : Int) ≤ off ∨ (cfg.rangePolicy = .checkFirst ∧ (srcLen : Int) < off + len)
  | .value => True
  | .tread _ => True

/-- Commands that fold no byte. -/
def foldsNothing (cfg : Config) (srcLen : Nat) (cs : List Instr) : Prop := ∀ i ∈ cs, Instr.foldsNothing cfg srcLen i

end Sys2Proof.Machine
end

