-- ==== Sys2Proof/Certificates/Slice0/Obligations.lean ====
section
/-! DEFINITION. The statements for the provers. Each docstring names the rule of spec/ it formalises; OBLIGATIONS.json lists
them. -/

open Sys2Proof Sys2Proof.Machine

/-! ### Encoding (spec/30_encoding.md) -/

/-- R64: the legal words by match and mask, and the OP values that no command has. -/
def Obligations.OpcodeMapDecodes : Prop :=
  ∀ (cfg : Config) (cw o l : Word) (rest : List Word),
    (cw &&& 0xFFFFFFFF#32 = 0x00000001#32 → decode cfg (cw :: rest) = .command .init rest) ∧
    (cw &&& 0xFFFF00FF#32 = 0x00000002#32 → decode cfg (cw :: rest) = .command (.updb (cw.extractLsb' 8 8)) rest) ∧
    (cw &&& 0xFFFFFFFF#32 = 0x00000003#32 →
      decode cfg (cw :: o :: l :: rest) = .command (.updr (operandInt cfg.idxW o) (operandInt cfg.idxW l)) rest) ∧
    (cw &&& 0xFFFFFFFF#32 = 0x00000004#32 → decode cfg (cw :: rest) = .command .value rest) ∧
    (cw &&& 0xFFFF00FF#32 = 0x00000005#32 → cfg.hasTread = true →
      decode cfg (cw :: rest) = .command (.tread (cw.extractLsb' 8 8)) rest) ∧
    (cw.extractLsb' 0 4 = 0x0#4 ∨ 0x6#4 ≤ cw.extractLsb' 0 4 → ∃ why, decode cfg (cw :: rest) = .illegal why rest)

/-- R65 and R70: a command whose words are all there is decoded to a command exactly when `legal(CW)` holds, and to an
illegal command otherwise; the operand words take no part. -/
def Obligations.DecodeFollowsLegality : Prop :=
  ∀ (cfg : Config) (cw : Word) (operands rest : List Word), operands.length + 1 = commandLength cw →
    let legalWord := cw.extractLsb' 16 16 = 0#16 ∧ cw.extractLsb' 4 4 = 0#4 ∧
      ((cw.extractLsb' 0 4 = 0x1#4 ∨ cw.extractLsb' 0 4 = 0x3#4 ∨ cw.extractLsb' 0 4 = 0x4#4) ∧
          cw.extractLsb' 8 8 = 0#8 ∨
        cw.extractLsb' 0 4 = 0x2#4 ∨ cw.extractLsb' 0 4 = 0x5#4 ∧ cfg.hasTread = true)
    (legalWord → ∃ i, decode cfg (cw :: operands ++ rest) = .command i rest) ∧
    (¬ legalWord → ∃ why, decode cfg (cw :: operands ++ rest) = .illegal why rest) ∧
    (legal cfg.hasTread cw = true ↔ legalWord)

/-- R62: the length is decided by OP alone. A stream is incomplete exactly when it has no word, or begins with a word of
OP 0x3 and fewer than two more; otherwise the command takes one word, or three where OP is 0x3, legal or not. -/
def Obligations.LengthIsDecidedByOp : Prop :=
  ∀ (cfg : Config) (cw : Word) (tail : List Word),
    (decode cfg [] = .incomplete) ∧
    (decode cfg (cw :: tail) = .incomplete ↔ cw.extractLsb' 0 4 = 0x3#4 ∧ tail.length < 2) ∧
    (∀ i rest, decode cfg (cw :: tail) = .command i rest →
      rest = tail.drop (if cw.extractLsb' 0 4 = 0x3#4 then 2 else 0)) ∧
    (∀ why rest, decode cfg (cw :: tail) = .illegal why rest →
      rest = tail.drop (if cw.extractLsb' 0 4 = 0x3#4 then 2 else 0))

/-- R63, with IDX_W = 32: an operand word is a two's-complement integer, all 32 bits of it; every integer from -2^31 to
2^31 - 1 has exactly one word; and word 1 of an UPDR is OFF, word 2 is LEN. -/
def Obligations.OperandWordsAreS32 : Prop :=
  (∀ w : Word, operandInt 32 w = if w.toNat < 2 ^ 31 then (w.toNat : Int) else (w.toNat : Int) - 2 ^ 32) ∧
  (∀ v : Int, -(2 ^ 31) ≤ v → v < 2 ^ 31 → operandInt 32 (s32Word v) = v) ∧
  (∀ w : Word, s32Word (operandInt 32 w) = w) ∧
  (∀ (cfg : Config) (word1 word2 : Word) (rest : List Word), cfg.idxW = 32 →
    decode cfg (0x00000003#32 :: word1 :: word2 :: rest) =
      .command (.updr (operandInt 32 word1) (operandInt 32 word2)) rest)

/-- IDX_W is a parameter (R5). What another width than 32 means for the words of the port is the model's choice (log 4):
the low IDX_W bits of a word count, as two's complement, where IDX_W is narrower, and the whole word where it is wider. -/
def Obligations.OperandsOfOtherWidths : Prop :=
  (∀ (cfg : Config) (word1 word2 : Word) (rest : List Word),
    decode cfg (0x00000003#32 :: word1 :: word2 :: rest) =
      .command (.updr (operandInt cfg.idxW word1) (operandInt cfg.idxW word2)) rest) ∧
  (∀ (idxW : PNat) (w : Word), (idxW : Nat) ≤ 32 →
    operandInt idxW w = if w.toNat % 2 ^ (idxW : Nat) < 2 ^ ((idxW : Nat) - 1) then (w.toNat % 2 ^ (idxW : Nat) : Int)
      else (w.toNat % 2 ^ (idxW : Nat) : Int) - 2 ^ (idxW : Nat)) ∧
  (∀ (idxW : PNat) (w : Word), 32 ≤ (idxW : Nat) → operandInt idxW w = w.toInt)

/-- Decoding the encoding of a well-formed command gives the command back, every operand with it (R61, R63, R64). TREAD
has an encoding only where HAS_TREAD holds, and OFF and LEN are integers that IDX_W admits (log 4 where it is not 32). -/
def Obligations.DecodeOfEncode : Prop :=
  ∀ (cfg : Config) (i : Instr) (rest : List Word), i.wf cfg.idxW = true → (∀ x, i = .tread x → cfg.hasTread = true) →
    decode cfg (encode i ++ rest) = .command i rest

/-- What is decoded is well formed, and every stream that decodes to a command begins with that command's encoding, so
each command has one encoding (R61, R63, R64). Where IDX_W is below 32 the operand words of an UPDR may differ from the
encoding in the bits that do not count (log 4). -/
def Obligations.EncodeOfDecode : Prop :=
  ∀ (cfg : Config) (ws rest : List Word) (i : Instr), decode cfg ws = .command i rest →
    i.wf cfg.idxW = true ∧ decode cfg (encode i ++ rest) = .command i rest ∧
    (32 ≤ (cfg.idxW : Nat) ∨ (∀ off len, i ≠ .updr off len) → ws = encode i ++ rest) ∧
    (∀ off len, i = .updr off len → ∃ o l, ws = 0x00000003#32 :: o :: l :: rest)

/-- Words written out from R64's patterns and the examples of R85, R104 and R107 (a sanity statement). -/
def Obligations.WrittenWordsDecode : Prop :=
  decode Config.default [0x00000001#32] = .command .init [] ∧
  decode Config.default [0x00003102#32] = .command (.updb 0x31#8) [] ∧
  decode Config.default [0x00000003#32, 0xFFFFFFFF#32, 0x00000001#32] = .command (.updr (-1) 1) [] ∧
  decode Config.default [0x00000004#32] = .command .value [] ∧
  decode Config.default [0x00008005#32] = .command (.tread 0x80#8) [] ∧
  decode { Config.default with hasTread := false } [0x00008005#32] = .illegal .noTread [] ∧
  decode Config.default [0x00013102#32] = .illegal .reservedField [] ∧
  decode Config.default [0x00000103#32, 0xFFFFFFFF#32, 0x00000001#32] = .illegal .immediate []

/-- R69: the codes of the responses; code 3 has no meaning. -/
def Obligations.ResponseCodes : Prop :=
  RCode.ok.bits = 0#2 ∧ RCode.illegal.bits = 1#2 ∧ RCode.range.bits = 2#2 ∧ RCode.ofBits 3#2 = none ∧
    (∀ c : RCode, RCode.ofBits c.bits = some c) ∧ (∀ c : RCode, c.bits ≠ 3#2)

/-! ### The table generator (spec/40_table_generator.md) -/

/-- R86 and R87, which the spec derives from R80: T[0x80] is POLY, since seven iterations bring 0x80 down to 1, so that `TREAD 0x80` answers POLY; and
T[0x00] is 0, since every iteration leaves 0; whatever POLY is. -/
def Obligations.TableHoldsPolyAndZero : Prop :=
  (∀ poly : U64, (genTable poly).entry 0x80#8 = poly ∧ genRun poly 7 0x80#64 = 1#64 ∧
    (genTable poly).entry 0x00#8 = 0#64 ∧ ∀ k : Nat, genRun poly k 0#64 = 0#64) ∧
  (∀ (s : State) (e : Engine), s.engines[s.cur]? = some e → s.tbl = genTable s.cfg.poly → s.cfg.hasTread = true →
    exec (.tread 0x80#8) s = .next (s.setEngine { e with rsp := e.rsp ++ [⟨.ok, s.cfg.poly⟩] }))

/-- R88, which the spec derives from R80: the table is linear over XOR, for every POLY; so its eight entries at powers of two fix it, and for the default
POLY (log 2) these are the listed values. -/
def Obligations.TableIsLinear : Prop :=
  (∀ (poly : U64) (a b : Byte),
    (genTable poly).entry (a ^^^ b) = (genTable poly).entry a ^^^ (genTable poly).entry b) ∧
  (∀ t t' : Table, (∀ a b : Byte, t.entry (a ^^^ b) = t.entry a ^^^ t.entry b) →
    (∀ a b : Byte, t'.entry (a ^^^ b) = t'.entry a ^^^ t'.entry b) →
    (∀ k < 8, t.entry (1#8 <<< k) = t'.entry (1#8 <<< k)) → t = t') ∧
  ((List.range 8).map fun k => (genTable Config.default.poly).entry (1#8 <<< k)) =
    [0xB32E4CBE03A75F6F#64, 0xF4843657A840A05B#64, 0x7BD0C384FF8F5E33#64, 0xF7A18709FF1EBC66#64,
     0x7D9BA13851336649#64, 0xFB374270A266CC92#64, 0x64B62BCAEBC387A1#64, 0xC96C5795D7870F42#64]

/-- R80: one iteration shifts right, zero-filling, and XORs POLY in exactly when the low bit was 1; an entry is eight
iterations from the byte, bit by bit. -/
def Obligations.GeneratorIteration : Prop :=
  (∀ (poly r : U64) (n : Nat), n < 64 →
    (genStep poly r).getLsbD n = ((decide (n < 63) && r.getLsbD (n + 1)) ^^ (r.getLsbD 0 && poly.getLsbD n))) ∧
  (∀ (poly : U64) (b : Byte), gen poly b = (genStep poly)^[8] (b.zeroExtend 64)) ∧
  (∀ (poly : U64) (b : Byte), (genTable poly).entry b = gen poly b)

/-- R83: nothing but the generator, during reset, writes T: no command, no step that takes a host's input, and no step at
all unless the generator is at work. -/
def Obligations.TableIsNeverWrittenAfterReset : Prop :=
  (∀ (i : Instr) (s t : State), exec i s = .next t → t.tbl = s.tbl) ∧
  (∀ s t : State, step s = .next t →
    (∀ g, s.phase ≠ .generating g) ∨ (∃ x rest, s.agenda = x :: rest ∧ ∀ k, x ≠ .serve k) → t.tbl = s.tbl)

/-- No command and no step writes the parameters, POLY among them (R29); that they stand in State is the model's choice
(log 1). -/
def Obligations.ParametersAreNeverWritten : Prop :=
  (∀ (i : Instr) (s t : State), exec i s = .next t → t.cfg = s.cfg) ∧
  (∀ s t : State, step s = .next t → t.cfg = s.cfg)

/-! ### INIT, UPDB, UPDR, VALUE (spec/41_update_engine.md) and TREAD -/

/-- R101: INIT presets the register and responds (OK, 0), whatever the engine did before, and leaves all else; its word is
0x00000001 exactly, and any other word of OP 0x1 ends in IllegalCommand. -/
def Obligations.InitPresetsTheRegister : Prop :=
  (∀ (s : State) (e : Engine), s.engines[s.cur]? = some e →
    exec .init s = .next (s.setEngine
      { e with crc := 0xFFFFFFFFFFFFFFFF#64, rsp := e.rsp ++ [⟨.ok, 0#64⟩] })) ∧
  (∀ (s u : State) (e : Engine) (cw : Word) (rest : List Word), s.awaits u e (cw :: rest) →
    cw.extractLsb' 0 4 = 0x1#4 →
    (cw = 0x00000001#32 → step s = exec .init (u.setEngine { e with accepted := [], port := rest })) ∧
    (cw ≠ 0x00000001#32 → s.endsInIllegalCommand u e rest))

/-- R104: UPDB folds its byte, bits 15:8 of its word, and responds (OK, 0); its word is OP 0x2 with Z0 and Z1 zero, and
any other word of OP 0x2 ends in IllegalCommand. -/
def Obligations.UpdbFoldsItsByte : Prop :=
  (∀ (s : State) (e : Engine) (x : Byte), s.engines[s.cur]? = some e →
    exec (.updb x) s = .next (s.setEngine
      { e with
        crc := s.tbl.entry ((x.zeroExtend 64 ^^^ e.crc).extractLsb' 0 8) ^^^ (e.crc >>> 8)
        rsp := e.rsp ++ [⟨.ok, 0#64⟩] })) ∧
  (∀ (s u : State) (e : Engine) (cw : Word) (rest : List Word), s.awaits u e (cw :: rest) →
    cw.extractLsb' 0 4 = 0x2#4 →
    (cw.extractLsb' 16 16 = 0#16 ∧ cw.extractLsb' 4 4 = 0#4 →
      step s = exec (.updb (cw.extractLsb' 8 8)) (u.setEngine { e with accepted := [], port := rest })) ∧
    (¬ (cw.extractLsb' 16 16 = 0#16 ∧ cw.extractLsb' 4 4 = 0#4) → s.endsInIllegalCommand u e rest))

/-- The corner cases of R104: the register's top byte after a fold is that of the entry used; a byte equal to the low byte
of the register only shifts it, in a generated table. -/
def Obligations.FoldCornerCases : Prop :=
  (∀ (t : Table) (c : U64) (x : Byte),
    (fold t c x).extractLsb' 56 8 = (t.entry (x ^^^ c.extractLsb' 0 8)).extractLsb' 56 8) ∧
  (∀ (poly c : U64), fold (genTable poly) c (c.extractLsb' 0 8) = c >>> 8)

/-- R107 with R106: under CHECK_FIRST, UPDR on a valid range folds SRC[off] to SRC[off+len-1] in ascending order and
responds (OK, 0), leaving STATUS; on any other range it leaves CRC, sets ERR_RANGE and responds (RANGE, 0). Word 0 is
0x00000003 exactly, OFF and LEN follow it (s32 with IDX_W = 32, which R63 encodes), and with any other word 0 of OP 0x3
the command ends in IllegalCommand after OFF and LEN are taken. What else is left unchanged is FrameOfUpdr. -/
def Obligations.UpdrUnderCheckFirst : Prop :=
  (∀ (s : State) (e : Engine) (off len : Int), s.cfg.rangePolicy = .checkFirst → s.engines[s.cur]? = some e →
    ∃ t e', exec (.updr off len) s = .next t ∧ t.engines[s.cur]? = some e' ∧
      (0 ≤ off ∧ 0 ≤ len ∧ off + len ≤ e.src.len →
        e'.crc = foldSeq s.tbl e.crc
            ((List.range len.toNat).map fun k => srcRead s.draws e.src (off.toNat + k)) ∧
          e'.status = e.status ∧ e'.rsp = e.rsp ++ [⟨.ok, 0#64⟩]) ∧
      (¬ (0 ≤ off ∧ 0 ≤ len ∧ off + len ≤ e.src.len) →
        e'.crc = e.crc ∧ e'.status = e.status ||| 1#32 ∧ e'.rsp = e.rsp ++ [⟨.range, 0#64⟩])) ∧
  (∀ (s u : State) (e : Engine) (cw o l : Word) (rest : List Word), s.awaits u e (cw :: o :: l :: rest) →
    cw.extractLsb' 0 4 = 0x3#4 →
    (cw = 0x00000003#32 → s.cfg.idxW = 32 →
      step s = exec (.updr o.toInt l.toInt) (u.setEngine { e with accepted := [], port := rest })) ∧
    (cw ≠ 0x00000003#32 → s.endsInIllegalCommand u e rest))

/-- R108: under FOLD_UNTIL_FAULT, UPDR folds the bytes from off on, as many as are in the buffer before the first index
that is not. With that it succeeds where none of the len indices is outside (len <= 0 included), leaving STATUS, and ends
in RangeError, with the folds made so far, where one is. The words are those of R107. What else is left unchanged is
FrameOfUpdr. -/
def Obligations.UpdrUnderFoldUntilFault : Prop :=
  (∀ (s : State) (e : Engine) (off len : Int), s.cfg.rangePolicy = .foldUntilFault → s.engines[s.cur]? = some e →
    let good := if 0 ≤ off then min len.toNat (e.src.len - off.toNat) else 0
    ∃ t e', exec (.updr off len) s = .next t ∧ t.engines[s.cur]? = some e' ∧
      e'.crc = foldSeq s.tbl e.crc ((List.range good).map fun k => srcRead s.draws e.src (off.toNat + k)) ∧
      ((∀ i : Int, off ≤ i → i < off + len → 0 ≤ i ∧ i < e.src.len) →
        good = len.toNat ∧ e'.status = e.status ∧ e'.rsp = e.rsp ++ [⟨.ok, 0#64⟩]) ∧
      ((∃ i : Int, off ≤ i ∧ i < off + len ∧ ¬ (0 ≤ i ∧ i < e.src.len)) →
        good < len.toNat ∧ e'.status = e.status ||| 1#32 ∧ e'.rsp = e.rsp ++ [⟨.range, 0#64⟩])) ∧
  (∀ (s u : State) (e : Engine) (cw o l : Word) (rest : List Word), s.awaits u e (cw :: o :: l :: rest) →
    cw.extractLsb' 0 4 = 0x3#4 →
    (cw = 0x00000003#32 → s.cfg.idxW = 32 →
      step s = exec (.updr o.toInt l.toInt) (u.setEngine { e with accepted := [], port := rest })) ∧
    (cw ≠ 0x00000003#32 → s.endsInIllegalCommand u e rest))

/-- R110: VALUE responds (OK, ~CRC) and leaves CRC, STATUS and all else; its word is 0x00000004 exactly, and any other word
of OP 0x4 ends in IllegalCommand. -/
def Obligations.ValueAnswersTheComplement : Prop :=
  (∀ (s : State) (e : Engine), s.engines[s.cur]? = some e →
    exec .value s = .next (s.setEngine { e with rsp := e.rsp ++ [⟨.ok, ~~~ e.crc⟩] })) ∧
  (∀ (s u : State) (e : Engine) (cw : Word) (rest : List Word), s.awaits u e (cw :: rest) →
    cw.extractLsb' 0 4 = 0x4#4 →
    (cw = 0x00000004#32 → step s = exec .value (u.setEngine { e with accepted := [], port := rest })) ∧
    (cw ≠ 0x00000004#32 → s.endsInIllegalCommand u e rest))

/-- R85: TREAD responds (OK, T[i]), i being bits 15:8 of its word, and writes nothing, where HAS_TREAD holds; without it
the command ends in IllegalCommand, and so does its word, and any word of OP 0x5 with Z0 or Z1 not zero. -/
def Obligations.TreadAnswersTheEntry : Prop :=
  (∀ (s : State) (e : Engine) (i : Byte), s.cfg.hasTread = true → s.engines[s.cur]? = some e →
    exec (.tread i) s = .next (s.setEngine { e with rsp := e.rsp ++ [⟨.ok, s.tbl.entry i⟩] })) ∧
  (∀ (s : State) (e : Engine) (i : Byte), s.cfg.hasTread = false → s.engines[s.cur]? = some e →
    exec (.tread i) s = .next (s.setEngine
      { e with status := e.status ||| 2#32, rsp := e.rsp ++ [⟨.illegal, 0#64⟩] })) ∧
  (∀ (s u : State) (e : Engine) (cw : Word) (rest : List Word), s.awaits u e (cw :: rest) →
    cw.extractLsb' 0 4 = 0x5#4 →
    (s.cfg.hasTread = true ∧ cw.extractLsb' 16 16 = 0#16 ∧ cw.extractLsb' 4 4 = 0#4 →
      step s = exec (.tread (cw.extractLsb' 8 8)) (u.setEngine { e with accepted := [], port := rest })) ∧
    (¬ (s.cfg.hasTread = true ∧ cw.extractLsb' 16 16 = 0#16 ∧ cw.extractLsb' 4 4 = 0#4) →
      s.endsInIllegalCommand u e rest))

/-- The frame of INIT, UPDB, VALUE and TREAD, which touch no source buffer: only the served engine changes, of it only
CRC (INIT and UPDB), STATUS (a TREAD that the realisation lacks) and the response port; every byte of its source buffer
reads as before (R21, R44, R103). -/
def Obligations.FrameOfRegisterCommands : Prop :=
  ∀ (i : Instr) (s t : State) (e : Engine), (∀ off len, i ≠ .updr off len) → exec i s = .next t →
    s.engines[s.cur]? = some e →
    ∃ e', t.engines[s.cur]? = some e' ∧
      (∀ k, k ≠ s.cur → t.engines[k]? = s.engines[k]?) ∧ t.engines.length = s.engines.length ∧
      t.cfg = s.cfg ∧ t.tbl = s.tbl ∧ t.phase = s.phase ∧ t.cur = s.cur ∧ t.agenda = s.agenda ∧ t.draws = s.draws ∧
      e'.accepted = e.accepted ∧ e'.port = e.port ∧ e'.src.len = e.src.len ∧ e'.src.racing = e.src.racing ∧
      (∀ a, Memory.read e'.src.mem a = Memory.read e.src.mem a) ∧
      (i = .value ∨ (∃ x, i = .tread x) → e'.crc = e.crc) ∧
      ((∀ x, i ≠ .tread x) ∨ s.cfg.hasTread = true → e'.status = e.status)

/-- The frame of UPDR: only the served engine changes, of it CRC, STATUS and the response port; every byte of its source
buffer that the host does not itself write during the command reads as before, and the buffer keeps its length (R44,
R103). The host's own writes land, in this engine's own buffer, and the counter of UPDR commands advances, by the model's choice
(logs 24, 12 and 14). -/
def Obligations.FrameOfUpdr : Prop :=
  ∀ (off len : Int) (s t : State) (e : Engine), exec (.updr off len) s = .next t →
    s.engines[s.cur]? = some e → Memory.wf e.src.mem →
    ∃ e', t.engines[s.cur]? = some e' ∧
      (∀ k, k ≠ s.cur → t.engines[k]? = s.engines[k]?) ∧ t.engines.length = s.engines.length ∧
      t.cfg = s.cfg ∧ t.tbl = s.tbl ∧ t.phase = s.phase ∧ t.cur = s.cur ∧ t.agenda = s.agenda ∧
      e'.accepted = e.accepted ∧ e'.port = e.port ∧ e'.src.len = e.src.len ∧
      (∀ a, (∀ b, (a, b) ∉ e.src.racing) → Memory.read e'.src.mem a = Memory.read e.src.mem a) ∧
      errIllegal e'.status = errIllegal e.status ∧ statusReserved e'.status = statusReserved e.status ∧
      e'.src = e.src.settle ∧ t.draws = s.draws + 1

/-- Both policies agree on every valid range (R107, R108, D9). -/
def Obligations.PoliciesAgreeOnValidRanges : Prop :=
  ∀ (t : Table) (rd : Nat → Byte) (n : Nat) (off len : Int) (c : U64), 0 ≤ off → 0 ≤ len → off + len ≤ n →
    updateRange .checkFirst t rd n off len c = updateRange .foldUntilFault t rd n off len c

/-- R42: UPDR never calls SrcRead with an index outside 0..src_len-1: its result does not depend on what such an index
would read as, under either policy. -/
def Obligations.UpdrReadsOnlyTheBuffer : Prop :=
  ∀ (policy : RangePolicy) (t : Table) (rd rd' : Nat → Byte) (n : Nat) (off len : Int) (c : U64),
    (∀ i < n, rd i = rd' i) → updateRange policy t rd n off len c = updateRange policy t rd' n off len c

/-- R55: a byte that the host writes during the UPDR that reads it is any byte (the model's free value, log 14), every
other byte is the buffer's, and afterwards the buffer holds what the host wrote last. -/
def Obligations.RacedBytesAreFree : Prop :=
  ∀ (draw : Nat) (src : Src) (i : Nat), Memory.wf src.mem → i < src.len →
    ((∃ b, (i, b) ∈ src.racing) → srcRead draw src i = Config.freeByte draw i) ∧
    ((∀ b, (i, b) ∉ src.racing) → srcRead draw src i = Memory.read src.mem i) ∧
    src.settle.racing = [] ∧ src.settle.len = src.len ∧
    Memory.read src.settle.mem i =
      match src.racing.reverse.find? (fun c => c.1 == i) with
      | some c => c.2
      | none => Memory.read src.mem i

/-- R109: a successful UPDR leaves CRC exactly as the sequence of UPDB of the bytes it reads, in ascending index order,
does, under either policy. -/
def Obligations.UpdrEqualsItsUpdbs : Prop :=
  ∀ (s t : State) (e e' : Engine) (off len : Int), s.engines[s.cur]? = some e →
    exec (.updr off len) s = .next t → t.engines[s.cur]? = some e' → e'.rsp = e.rsp ++ [⟨.ok, 0#64⟩] →
    ∃ u e'', runCommands ((List.range len.toNat).map fun k => .updb (srcRead s.draws e.src (off.toNat + k))) s =
        .next u ∧ u.engines[s.cur]? = some e'' ∧ e''.crc = e'.crc

/-- R112: any mix of UPDB and successful UPDR commands folds the bytes of all of them, joined in order: the checksum does
not depend on where the chunks end. Under FOLD_UNTIL_FAULT the UPDR commands that read nothing count, their range being
valid or not. The host writes no byte meanwhile. -/
def Obligations.ChunkBoundariesDoNotMatter : Prop :=
  ∀ (cs cs' : List Instr) (s : State) (e : Engine) (bs bs' : List Byte), s.engines[s.cur]? = some e →
    e.src.racing = [] → updatesBytes s.cfg.rangePolicy e.src cs = some bs →
    updatesBytes s.cfg.rangePolicy e.src cs' = some bs' →
    (∃ t e', runCommands cs s = .next t ∧ t.engines[s.cur]? = some e' ∧ e'.crc = foldSeq s.tbl e.crc bs) ∧
    (bs = bs' → ∃ t t' e₁ e₂, runCommands cs s = .next t ∧ runCommands cs' s = .next t' ∧
      t.engines[s.cur]? = some e₁ ∧ t'.engines[s.cur]? = some e₂ ∧ e₁.crc = e₂.crc)

/-- R111: two VALUE commands give the same data, and any command after a VALUE leaves the checksum it would leave without
it. -/
def Obligations.ValueIsTransparent : Prop :=
  ∀ (s : State) (e : Engine), s.engines[s.cur]? = some e →
    (∃ t e', runCommands [.value, .value] s = .next t ∧ t.engines[s.cur]? = some e' ∧
      e'.rsp = e.rsp ++ [⟨.ok, ~~~ e.crc⟩, ⟨.ok, ~~~ e.crc⟩] ∧ e'.crc = e.crc ∧ e'.status = e.status) ∧
    (∀ i : Instr, ∃ t u e' e'', runCommands [.value, i] s = .next t ∧ runCommands [i] s = .next u ∧
      t.engines[s.cur]? = some e' ∧ u.engines[s.cur]? = some e'' ∧ e'.crc = e''.crc ∧ e'.status = e''.status)

/-- R113, which the spec derives from R101 and R110: after INIT, and after reset with any buffer bound, and no fold since,
VALUE answers 0. The commands between may be any that fold no byte: INIT, VALUE, TREAD, and an UPDR whose first index is
outside the buffer, that has no index to read, or whose range is invalid under CHECK_FIRST. Before a host has bound a
buffer, such an UPDR finds the empty one that log 12 chooses. -/
def Obligations.EmptyInputGivesZero : Prop :=
  (∀ (s : State) (e : Engine) (cs : List Instr), s.engines[s.cur]? = some e → foldsNothing s.cfg e.src.len cs →
    ∃ t e' earlier, runCommands (.init :: cs ++ [.value]) s = .next t ∧ t.engines[s.cur]? = some e' ∧
      e'.rsp = earlier ++ [⟨.ok, 0x0000000000000000#64⟩]) ∧
  (∀ (s : State) (e : Engine) (cs : List Instr), s.engines[s.cur]? = some e.inReset →
    foldsNothing s.cfg e.src.len cs →
    ∃ t e' earlier, runCommands (cs ++ [.value]) s = .next t ∧ t.engines[s.cur]? = some e' ∧
      e'.rsp = earlier ++ [⟨.ok, 0x0000000000000000#64⟩]) ∧
  (∀ (cfg : Config) (k : Nat) (cs : List Instr), k < cfg.numEngines → foldsNothing cfg 0 cs →
    ∃ t e' earlier, runCommands (cs ++ [.value]) { State.resetOf cfg with cur := k } = .next t ∧
      t.engines[k]? = some e' ∧ e'.rsp = earlier ++ [⟨.ok, 0x0000000000000000#64⟩])

/-- The reference vector of R2: with the default POLY (log 2), folding the nine bytes "123456789" by one UPDR from the
preset and reading VALUE gives the check value; and the order of bytes matters: "12" and "21" give the two values that
R109 derives. -/
def Obligations.CheckValue : Prop :=
  (∀ (s : State) (e : Engine), s.tbl = genTable Config.default.poly → s.engines[s.cur]? = some e → e.crc = preset →
    e.src = Src.bind [0x31#8, 0x32#8, 0x33#8, 0x34#8, 0x35#8, 0x36#8, 0x37#8, 0x38#8, 0x39#8] →
    ∃ t e', runCommands [.updr 0 9, .value] s = .next t ∧ t.engines[s.cur]? = some e' ∧
      e'.rsp = e.rsp ++ [⟨.ok, 0#64⟩, ⟨.ok, 0x995DC9BBDF1939FA#64⟩]) ∧
  ~~~ foldSeq (genTable Config.default.poly) preset [0x31#8, 0x32#8] = 0x041D6D7E27F25958#64 ∧
  ~~~ foldSeq (genTable Config.default.poly) preset [0x32#8, 0x31#8] = 0xBE8C9D216964B57B#64

/-! ### Errors (spec/60_exceptions.md) and STATUS (spec/10_state.md) -/

/-- R66 and R140: a word that spells no command ends in IllegalCommand, after its words are taken: ERR_ILLEGAL is set,
the response is (ILLEGAL, 0), and CRC, the source buffer and all else stay. Both where nothing is on the agenda and where
it names the engine. -/
def Obligations.IllegalWordsEndInIllegalCommand : Prop :=
  ∀ (s u : State) (e : Engine) (cw : Word) (operands rest : List Word), s.awaits u e (cw :: operands ++ rest) →
    operands.length = (if cw.extractLsb' 0 4 = 0x3#4 then 2 else 0) →
    (cw.extractLsb' 0 4 = 0x0#4 ∨ 0x6#4 ≤ cw.extractLsb' 0 4 ∨
      (cw.extractLsb' 0 4 = 0x5#4 ∧ s.cfg.hasTread = false) ∨
      cw.extractLsb' 4 4 ≠ 0#4 ∨ cw.extractLsb' 16 16 ≠ 0#16 ∨
      (cw.extractLsb' 8 8 ≠ 0#8 ∧
        (cw.extractLsb' 0 4 = 0x1#4 ∨ cw.extractLsb' 0 4 = 0x3#4 ∨ cw.extractLsb' 0 4 = 0x4#4))) →
    step s = .next (u.setEngine
      { e with
        status := e.status ||| 2#32, rsp := e.rsp ++ [⟨.illegal, 0#64⟩], accepted := [], port := rest })

/-- R143: legality is checked before the range, so an UPDR with a reserved or immediate field that is not zero never sets
ERR_RANGE, whatever its operand words are. -/
def Obligations.LegalityBeforeRange : Prop :=
  ∀ (s u t : State) (e e' : Engine) (cw o l : Word) (rest : List Word), s.awaits u e (cw :: o :: l :: rest) →
    cw.extractLsb' 0 4 = 0x3#4 → cw ≠ 0x00000003#32 → step s = .next t → t.engines[u.cur]? = some e' →
    errRange e'.status = errRange e.status ∧ errIllegal e'.status = true ∧ e'.rsp = e.rsp ++ [⟨.illegal, 0#64⟩]

/-- R145: under CHECK_FIRST the state after an error is the state before the command plus the STATUS bit: CRC is as it
was. -/
def Obligations.ErrorsArePreciseUnderCheckFirst : Prop :=
  ∀ (i : Instr) (s t : State) (e e' : Engine) (r : Response), s.cfg.rangePolicy = .checkFirst →
    exec i s = .next t → s.engines[s.cur]? = some e → t.engines[s.cur]? = some e' → e'.rsp = e.rsp ++ [r] →
    r.code ≠ .ok →
    e'.crc = e.crc ∧ r.data = 0#64 ∧
      (r.code = .range → e'.status = e.status ||| 1#32) ∧ (r.code = .illegal → e'.status = e.status ||| 2#32)

/-- R60 and R68: every command gives exactly one response, behind the earlier ones; its data is ~CRC for VALUE, the entry
for TREAD, and 0 for every other command and every error. A command that succeeds leaves STATUS (R24). -/
def Obligations.OneResponsePerCommand : Prop :=
  ∀ (i : Instr) (s : State) (e : Engine), s.engines[s.cur]? = some e →
    ∃ t e' r, exec i s = .next t ∧ t.engines[s.cur]? = some e' ∧ e'.rsp = e.rsp ++ [r] ∧
      (r.code = .ok → e'.status = e.status) ∧
      (r.data = match i with
        | .init => 0#64
        | .updb _ => 0#64
        | .updr _ _ => 0#64
        | .value => ~~~ e.crc
        | .tread x => if s.cfg.hasTread then s.tbl.entry x else 0#64)

/-- R24: no step but an assertion of reset clears a STATUS bit of any engine; a command that succeeds leaves STATUS; setting
a bit that is 1 leaves it 1; and no input of a host but a reset writes STATUS. R24 says 'until the next reset': that STATUS
is cleared in the step that asserts reset, and not when reset is released or completes, is the model's choice (log 10). -/
def Obligations.StatusBitsAreSticky : Prop :=
  (∀ (s t : State), step s = .next t → s.agenda.head? ≠ some .assertReset →
    ∀ (k : Nat) (e : Engine), s.engines[k]? = some e →
      ∃ e', t.engines[k]? = some e' ∧ (errRange e.status = true → errRange e'.status = true) ∧
        (errIllegal e.status = true → errIllegal e'.status = true)) ∧
  (∀ (i : Instr) (s t : State) (e e' : Engine) (d : U64), exec i s = .next t → s.engines[s.cur]? = some e →
    t.engines[s.cur]? = some e' → e'.rsp = e.rsp ++ [⟨.ok, d⟩] → e'.status = e.status) ∧
  (∀ st : Word, (errRange st = true → setStatus st .rangeError = st) ∧
    (errIllegal st = true → setStatus st .illegalCommand = st)) ∧
  (∀ (s t : State) (x : Input) (rest : List Input), s.agenda = x :: rest → step s = .next t →
    x ≠ .assertReset → (∀ k, x ≠ .serve k) → t.engines.map Engine.status = s.engines.map Engine.status)

/-- R25: what the host does at the ports and the source buffers changes no CRC and no STATUS of any engine; only a command
or a reset does. That a reset does so in the step that asserts it, so that the release changes neither, is the model's
choice (log 10). -/
def Obligations.HostInputsLeaveTheRegisters : Prop :=
  ∀ (s t : State) (x : Input) (rest : List Input), s.agenda = x :: rest → step s = .next t →
    x ≠ .assertReset → (∀ k, x ≠ .serve k) →
    t.engines.map (fun e => (e.crc, e.status)) = s.engines.map (fun e => (e.crc, e.status))

/-- R146: after an error every command keeps its meaning: what a command does to CRC, the source buffer and the responses
does not depend on STATUS. -/
def Obligations.StatusDoesNotChangeCommands : Prop :=
  ∀ (i : Instr) (s : State) (e : Engine) (st : Word), s.engines[s.cur]? = some e →
    ∃ t u e' e'', exec i s = .next t ∧ exec i (s.setEngine { e with status := st }) = .next u ∧
      t.engines[s.cur]? = some e' ∧ u.engines[s.cur]? = some e'' ∧
      e''.crc = e'.crc ∧ e''.rsp = e'.rsp ∧ e''.src = e'.src ∧ e''.port = e'.port

/-! ### The step, reset and hazards (spec/20_memory.md, spec/70_reset_and_hazards.md) -/

/-- A step runs the decoded command: with reset complete, when the served engine's stream decodes to a command, the step
is `exec` of it on the state in which the engine has taken its words (R50, R60). Both where nothing is on the agenda and
where it names the engine. -/
def Obligations.StepRunsTheDecodedCommand : Prop :=
  ∀ (s : State) (e : Engine) (i : Instr) (rest : List Word) (k : Nat) (more : List Input), s.phase = .ready →
    s.engines[k]? = some e → decode s.cfg (e.accepted ++ e.port) = .command i rest →
    (s.agenda = [] → s.cur = k → step s = exec i (s.setEngine { e with accepted := [], port := rest })) ∧
    (s.agenda = .serve k :: more →
      step s = exec i (State.setEngine { s with agenda := more, cur := k } { e with accepted := [], port := rest }))

/-- R178: an UPDR word without its two operand words holds the engine: nothing changes but that the words are taken, and at
any later turn, whatever has happened to the rest of the machine, the held engine changes nothing; when the missing words
are presented, the stream is that of the whole command; and a reset gives the words up (log 7). Both where nothing is on the
agenda and where it names the engine. That a held engine's step answers a next state is log 6. -/
def Obligations.IncompleteCommandHoldsTheEngine : Prop :=
  ∀ (s u : State) (e : Engine) (cw : Word) (tail missing : List Word), s.awaits u e (cw :: tail) →
    cw.extractLsb' 0 4 = 0x3#4 → tail.length < 2 →
    let held := { e with accepted := cw :: tail, port := [] }
    step s = .next (u.setEngine held) ∧
      (∀ s' u' : State, s'.awaits u' held (cw :: tail) → step s' = .next u') ∧
      (held.present missing).stream = cw :: tail ++ missing ∧ held.inReset.stream = []

/-- R170 and R175: while reset is asserted, and before it completes, no command is accepted and no response is delivered: a
turn leaves every engine's port, taken words, responses and source buffer as they are, whatever waits at the ports. That
CRC and STATUS do not change either is the model's choice (log 10), and that a turn with reset asserted changes nothing
at all is too (log 6). Both where nothing is on the agenda and where it names an engine. -/
def Obligations.CommandsWaitUntilResetCompletes : Prop :=
  ∀ s u : State, s.turn u → s.phase ≠ .ready →
    (∃ t, step s = .next t ∧ t.engines = s.engines) ∧ (s.phase = .asserted → step s = .next u)

/-- R33: the reset values: every engine's CRC is all ones and its STATUS 0, no command is in progress, no response is
pending, T holds gen(POLY, b) at every index, and the generation is finished. -/
def Obligations.ResetValues : Prop :=
  ∀ cfg : Config, (State.resetOf cfg).phase = .ready ∧ (State.resetOf cfg).engines.length = cfg.numEngines ∧
    (∀ b : Byte, (State.resetOf cfg).tbl.entry b = gen cfg.poly b) ∧
    (∀ e ∈ (State.resetOf cfg).engines,
      e.crc = 0xFFFFFFFFFFFFFFFF#64 ∧ e.status = 0#32 ∧ e.accepted = [] ∧ e.rsp = [])

/-- R171, R172 and R173: from EVERY state, whatever it was doing, asserting and releasing reset and letting the generator
run its 256 times 8 iterations leads to the reset values: reset is complete, T is generated, every engine's CRC is all
ones, its STATUS 0, no command is in progress and no response is pending. What waits at the ports, and the source
buffers, are the host's and stay (logs 7 and 12); that responses delivered and not yet taken are gone too is the model's reading of
'no response is pending' (DEDUCED, log 9). Reset completes with the last iteration and not before; that the
iterations are steps is the model's choice (log 11). -/
def Obligations.ResetFromEveryState : Prop :=
  ∀ s : State, s.agenda = [.assertReset, .releaseReset] →
    (∃ t : State, Host.Core.run Sys2Proof.core (2 + 256 * 8) s = .next t ∧ t.phase = .ready ∧
      t.tbl = genTable s.cfg.poly ∧
      t.engines = s.engines.map fun e => { e with crc := 0xFFFFFFFFFFFFFFFF#64, status := 0#32, accepted := [], rsp := [] }) ∧
    (∀ (k : Nat) (t : State), 0 < k → k < 2 + 256 * 8 → Host.Core.run Sys2Proof.core k s = .next t → t.phase ≠ .ready)

/-- R26 and R54: commands on different engines commute: neither engine, nor anything else, depends on the order. No host
write races with them. -/
def Obligations.EnginesDoNotInterfere : Prop :=
  ∀ (s : State) (j k : Nat) (ej ek : Engine) (a b : Instr), j ≠ k → s.engines[j]? = some ej →
    s.engines[k]? = some ek → ej.src.racing = [] → ek.src.racing = [] →
    ∃ t t' u u', exec a { s with cur := j } = .next t ∧ exec b { t with cur := k } = .next t' ∧
      exec b { s with cur := k } = .next u ∧ exec a { u with cur := j } = .next u' ∧
      t'.engines = u'.engines ∧ t'.tbl = u'.tbl ∧ t'.draws = u'.draws

/-- R42: binding a sequence of bytes makes the buffer those bytes, at indices 0 to length - 1. By the model's choice the
writes that were to race on the old buffer are gone (log 24), and a sequence longer than SRC_LEN_MAX is refused
(log 16). -/
def Obligations.BindingMakesTheBuffer : Prop :=
  ∀ (s : State) (k : Nat) (e : Engine) (bytes : List Byte) (rest : List Input),
    s.agenda = .bindSrc k bytes :: rest → s.engines[k]? = some e →
    (bytes.length ≤ s.cfg.srcLenMax →
      ∃ t e', step s = .next t ∧ t.engines[k]? = some e' ∧ e'.crc = e.crc ∧ e'.status = e.status ∧
        e'.src.len = bytes.length ∧ e'.src.racing = [] ∧
        (∀ (draw i : Nat) (hi : i < bytes.length), srcRead draw e'.src i = bytes[i])) ∧
    (s.cfg.srcLenMax < bytes.length → step s = .refused .srcTooLong)

/-- A host's write to the source buffer changes that byte and no other (R42, R51). -/
def Obligations.SourceWriteChangesOneByte : Prop :=
  ∀ (s : State) (k : Nat) (e : Engine) (index : Nat) (b : Byte) (rest : List Input),
    s.agenda = .writeSrc k index b :: rest → s.engines[k]? = some e → Memory.wf e.src.mem → index < e.src.len →
    ∃ t e', step s = .next t ∧ t.engines[k]? = some e' ∧ e'.src.len = e.src.len ∧
      Memory.read e'.src.mem index = b ∧ (∀ i, i ≠ index → Memory.read e'.src.mem i = Memory.read e.src.mem i)

/-- What a host does at the ports, and a write that is to race with an UPDR: words presented wait behind those that already
wait (R60); taking a response removes the oldest one only (R60; log 8); a racing write is only recorded (log 24), for that engine's own buffer
(log 12). Nothing
else of the machine changes. -/
def Obligations.PortInputsChangeOnlyTheirPort : Prop :=
  ∀ (s : State) (k : Nat) (e : Engine) (rest : List Input), s.engines[k]? = some e →
    (∀ ws, s.agenda = .present k ws :: rest →
      step s = .next { s with agenda := rest, engines := s.engines.set k { e with port := e.port ++ ws } }) ∧
    (s.agenda = .takeResponse k :: rest →
      step s = .next { s with agenda := rest, engines := s.engines.set k { e with rsp := e.rsp.drop 1 } }) ∧
    (∀ index b, s.agenda = .writeSrcDuring k index b :: rest →
      step s = .next
        { s with
          agenda := rest
          engines := s.engines.set k { e with src := { e.src with racing := e.src.racing ++ [(index, b)] } } })

/-- An input about one engine's port, buffer or responses leaves every other engine, the table, the parameters and the reset
phase, whose turn it is and the rest of what is to come. For the ports, CRC and STATUS this is R26 and R152; that the
other engines' source buffers stay too, since each engine has its own, is the model's choice (log 12). -/
def Obligations.InputsLeaveTheOtherEngines : Prop :=
  ∀ (s t : State) (x : Input) (rest : List Input) (k : Nat), s.agenda = x :: rest → x.engine? = some k →
    step s = .next t →
    (∀ j, j ≠ k → t.engines[j]? = s.engines[j]?) ∧ t.engines.length = s.engines.length ∧ t.tbl = s.tbl ∧
      t.cfg = s.cfg ∧ t.phase = s.phase ∧ t.cur = s.cur ∧ t.agenda = rest ∧ t.draws = s.draws

/-- Where no engine has the number that is served, every command stops, with the fault that says so (R152, log 15). -/
def Obligations.CommandsNeedAnEngine : Prop :=
  ∀ (i : Instr) (s : State), s.engines[s.cur]? = none ↔ exec i s = .fault .noSuchEngine

/-! ### The invariant -/

/-- The invariant holds right after reset, in every realisation, and so in the default one. -/
def Obligations.InvariantAtReset : Prop :=
  (∀ cfg : Config, (State.resetOf cfg).Inv) ∧ State.reset.Inv

/-- Every step keeps the invariant: the number of engines, the reserved STATUS bits (R23), the canonical form and the
bounds of every source buffer, the words of a command in progress, and the table, entry by entry while it is generated
and whole after reset (R81, R83). -/
def Obligations.StepKeepsTheInvariant : Prop :=
  ∀ s t : State, s.Inv → step s = .next t → t.Inv

/-- From every state that meets the invariant, with an allowed input next or none, a step answers a next state. For a command
this rests on R142 (no error but the two, which are next states by R144) and R182 (every command terminates). R182 excepts
the held states of R175 and R178, which the spec also calls stuck (I8, I9): that a held engine, an engine with nothing at
its port, or a machine whose reset input is asserted answers a next state, and not a stop, is the model's reading
(DEDUCED, log 6). -/
def Obligations.TheMachineNeverStops : Prop :=
  ∀ s : State, s.Inv → (∀ x, s.agenda.head? = some x → x.allowed s.cfg = true) → ∃ t, step s = .next t

/-! ### The assembler (spec/30_encoding.md) -/

/-- R71: a command line's words are the command's encoding, for exactly the commands whose operands are in range; the
words themselves are those of R71's table. -/
def Obligations.AssemblyLinesGiveTheirWords : Prop :=
  (∀ (k : Nat) (n : Option Nat) (i : Instr),
    (i.wf 32 = true → assembleLine k n (.command i) = some ([.present k (encode i), .serve k], n)) ∧
    (i.wf 32 = false → assembleLine k n (.command i) = none)) ∧
  encode .init = [0x00000001#32] ∧ encode .value = [0x00000004#32] ∧
  (∀ b : Byte, encode (.updb b) = [0x00000002#32 ||| (b.zeroExtend 32 <<< 8)]) ∧
  (∀ b : Byte, encode (.tread b) = [0x00000005#32 ||| (b.zeroExtend 32 <<< 8)]) ∧
  (∀ off len : Int, encode (.updr off len) = [0x00000003#32, BitVec.ofInt 32 off, BitVec.ofInt 32 len])

/-- R72: UPDALL is `UPDR 0, src_len` for the buffer the last `.src` bound, UPDSTR is one UPDB for each character, in order;
and for the same bytes they leave the same CRC (which R72 derives from R109). -/
def Obligations.UpdAllEqualsUpdStr : Prop :=
  (∀ (k : Nat) (last : Option Nat) (bytes : List Byte),
    assembleLine k last (.src bytes) = some ([.bindSrc k bytes], some bytes.length)) ∧
  (∀ (k n : Nat), assembleLine k (some n) .updAll = assembleLine k (some n) (.command (.updr 0 n))) ∧
  (∀ (k : Nat) (last : Option Nat) (text : List Byte),
    assembleLine k last (.updStr text) =
      (assembleFrom k last (text.map fun c => .command (.updb c))).map fun xs => (xs, last)) ∧
  (∀ (s : State) (e : Engine) (bytes : List Byte), s.engines[s.cur]? = some e → e.src = Src.bind bytes →
    ∃ t u e' e'', runCommands [.updr 0 bytes.length] s = .next t ∧ runCommands (bytes.map .updb) s = .next u ∧
      t.engines[s.cur]? = some e' ∧ u.engines[s.cur]? = some e'' ∧ e'.crc = e''.crc ∧
      e'.crc = foldSeq s.tbl e.crc bytes)
end

