-- ==== Sys2Proof/Laws/Decode.lean ====
section
/-! SUPPORT. The fields of a command word, the decoder's cases, and the operand words. -/

namespace Sys2Proof

/-! ### Words and their fields -/

/-- A command word is its four fields (R61). -/
theorem word_of_fields (cw : Word) : cw = fieldZ1 cw ++ fieldImm8 cw ++ fieldZ0 cw ++ fieldOp cw := by
  apply BitVec.eq_of_getLsbD_eq
  intro i hi
  simp only [fieldZ1, fieldImm8, fieldZ0, fieldOp, BitVec.getLsbD_append, BitVec.getLsbD_extractLsb']
  by_cases h4 : i < 4
  · simp [h4]
  · by_cases h8 : i - 4 < 4
    · simp [h4, h8, show 4 + (i - 4) = i by omega]
    · by_cases h16 : i - 4 - 4 < 8
      · simp [h4, h8, h16, show 8 + (i - 4 - 4) = i by omega]
      · simp [h4, h8, h16, show 16 + (i - 4 - 4 - 8) = i by omega]
        exact fun _ => by omega

/-- The bits of a command word: OP, then four zeros, then IMM8, then sixteen zeros (R61). -/
theorem commandWord_bit (op : BitVec 4) (imm8 : Byte) (i : Nat) :
    (commandWord op imm8).getLsbD i =
      if i < 4 then op.getLsbD i else if i < 8 then false else if i < 16 then imm8.getLsbD (i - 8) else false := by
  show BitVec.getLsbD (w := 16 + 8 + 4 + 4) (0#16 ++ imm8 ++ 0#4 ++ op) i = _
  simp only [BitVec.getLsbD_append, BitVec.getLsbD_zero]
  by_cases h4 : i < 4
  · simp [h4]
  · by_cases h8 : i < 8
    · simp [h4, h8, show i - 4 < 4 by omega]
    · by_cases h16 : i < 16
      · simp [h4, h8, h16, show ¬ i - 4 < 4 by omega, show i - 4 - 4 = i - 8 by omega, show i - 8 < 8 by omega]
      · simp [h4, h8, h16, show ¬ i - 4 < 4 by omega, show ¬ i - 4 - 4 < 8 by omega]

@[simp] theorem fieldOp_commandWord (op : BitVec 4) (imm8 : Byte) : fieldOp (commandWord op imm8) = op := by
  apply BitVec.eq_of_getLsbD_eq
  intro i hi
  rw [fieldOp, BitVec.getLsbD_extractLsb', commandWord_bit, if_pos (by omega)]
  simp [hi]

@[simp] theorem fieldZ0_commandWord (op : BitVec 4) (imm8 : Byte) : fieldZ0 (commandWord op imm8) = 0#4 := by
  apply BitVec.eq_of_getLsbD_eq
  intro i hi
  rw [fieldZ0, BitVec.getLsbD_extractLsb', commandWord_bit, if_neg (by omega), if_pos (by omega)]
  simp

@[simp] theorem fieldImm8_commandWord (op : BitVec 4) (imm8 : Byte) : fieldImm8 (commandWord op imm8) = imm8 := by
  apply BitVec.eq_of_getLsbD_eq
  intro i hi
  rw [fieldImm8, BitVec.getLsbD_extractLsb', commandWord_bit, if_neg (by omega), if_neg (by omega), if_pos (by omega)]
  simp [hi]

@[simp] theorem fieldZ1_commandWord (op : BitVec 4) (imm8 : Byte) : fieldZ1 (commandWord op imm8) = 0#16 := by
  apply BitVec.eq_of_getLsbD_eq
  intro i hi
  rw [fieldZ1, BitVec.getLsbD_extractLsb', commandWord_bit, if_neg (by omega), if_neg (by omega), if_neg (by omega)]
  simp

/-- A word whose reserved fields are 0 is the command word of its other two fields. -/
theorem eq_commandWord (cw : Word) (h1 : fieldZ1 cw = 0#16) (h0 : fieldZ0 cw = 0#4) :
    cw = commandWord (fieldOp cw) (fieldImm8 cw) := by
  have := word_of_fields cw
  rw [h1, h0] at this
  exact this

/-! ### Operand words (R63) -/

/-- An operand of 32 bits is its word's two's-complement integer. -/
@[simp] theorem operandInt_32 (w : Word) : operandInt 32 w = s32 w := by
  show (w.signExtend 32).toInt = w.toInt
  rw [BitVec.signExtend_eq]

/-- An operand is its word's integer, wrapped to the bits that count. -/
theorem operandInt_eq (idxW : PNat) (w : Word) : operandInt idxW w = (s32 w).bmod (2 ^ operandBits idxW) := by
  rw [operandInt, BitVec.toInt_signExtend, s32, operandBits]

/-- An integer of some bits is not changed by wrapping to them. -/
theorem bmod_of_fitsSigned (bits : Nat) (v : Int) (hb : 0 < bits) (h : fitsSigned bits v = true) :
    v.bmod (2 ^ bits) = v := by
  obtain ⟨h1, h2⟩ := of_decide_eq_true h
  obtain ⟨n, rfl⟩ : ∃ n, bits = n + 1 := ⟨bits - 1, by omega⟩
  simp only [Nat.add_sub_cancel] at h1 h2
  have hp : ((2 ^ (n + 1) : Nat) : Int) = 2 * 2 ^ n := by push_cast; ring
  exact Int.bmod_eq_of_le (by omega) (by omega)

/-- Wrapping to some bits gives an integer of those bits. -/
theorem fitsSigned_bmod (bits : Nat) (v : Int) (hb : 0 < bits) : fitsSigned bits (v.bmod (2 ^ bits)) = true := by
  obtain ⟨n, rfl⟩ : ∃ n, bits = n + 1 := ⟨bits - 1, by omega⟩
  have hp : ((2 ^ (n + 1) : Nat) : Int) = 2 * 2 ^ n := by push_cast; ring
  have h0 : 0 < 2 ^ (n + 1) := Nat.two_pow_pos _
  have h1 := Int.le_bmod (x := v) h0
  have h2 := Int.bmod_lt (x := v) h0
  refine decide_eq_true ⟨?_, ?_⟩ <;> simp only [Nat.add_sub_cancel] <;> omega

theorem operandBits_pos (idxW : PNat) : 0 < operandBits idxW := by
  have := idxW.pos
  simp only [operandBits]; omega

/-- The word of an integer in range stands for it. -/
theorem operandInt_s32Word (idxW : PNat) (v : Int) (h : fitsSigned (operandBits idxW) v = true) :
    operandInt idxW (s32Word v) = v := by
  rw [operandInt_eq, s32, s32Word, BitVec.toInt_ofInt,
    Int.bmod_bmod_of_dvd (Nat.pow_dvd_pow 2 (by simp [operandBits]))]
  exact bmod_of_fitsSigned _ _ (operandBits_pos idxW) h

/-- An operand word stands for an integer in range. -/
theorem fitsSigned_operandInt (idxW : PNat) (w : Word) : fitsSigned (operandBits idxW) (operandInt idxW w) = true := by
  rw [operandInt_eq]
  exact fitsSigned_bmod _ _ (operandBits_pos idxW)

theorem s32_s32Word (v : Int) (h : fitsS32 v = true) : s32 (s32Word v) = v := by
  simpa using operandInt_s32Word 32 v h

/-- The word of the integer a word stands for is that word. -/
theorem s32Word_s32 (w : Word) : s32Word (s32 w) = w := by simp [s32, s32Word]

/-- Where every bit of the word counts, the integer it stands for is that of 32 bits. -/
theorem operandInt_wide (idxW : PNat) (w : Word) (h : 32 ≤ (idxW : Nat)) : operandInt idxW w = s32 w := by
  have hb : operandBits idxW = 32 := by simp [operandBits, h]
  rw [operandInt_eq, hb]
  exact bmod_of_fitsSigned 32 _ (by omega) (by
    have h1 := BitVec.le_toInt w
    have h2 := BitVec.toInt_lt (x := w)
    exact decide_eq_true ⟨by simpa [s32] using h1, by simpa [s32] using h2⟩)

/-! ### The decoder's cases -/

/-- A stream of one-word commands. -/
theorem decode_one (cfg : Config) (cw : Word) (rest : List Word) (hop : fieldOp cw ≠ 0x3#4) :
    decode cfg (cw :: rest) = decodeComplete cfg cw 0#32 0#32 rest := by
  simp [decode, commandLength, hop]

/-- A stream that begins with a whole three-word command. -/
theorem decode_three (cfg : Config) (cw o l : Word) (rest : List Word) (hop : fieldOp cw = 0x3#4) :
    decode cfg (cw :: o :: l :: rest) = decodeComplete cfg cw o l rest := by
  simp [decode, commandLength, hop]

/-- A stream is incomplete exactly when it has no word, or a word of OP 0x3 and fewer than two more (R62, R178). -/
theorem decode_incomplete_iff (cfg : Config) (ws : List Word) :
    decode cfg ws = .incomplete ↔ ws = [] ∨ ∃ cw tail, ws = cw :: tail ∧ fieldOp cw = 0x3#4 ∧ tail.length < 2 := by
  have hc : ∀ cw o l rest, decodeComplete cfg cw o l rest ≠ .incomplete := by
    intro cw o l rest
    unfold decodeComplete
    cases readCommand cfg cw o l <;> simp
  match ws with
  | [] => simp [decode]
  | cw :: tail =>
    by_cases hop : fieldOp cw = 0x3#4
    · match tail with
      | [] => simp [decode, commandLength, hop]
      | [o] => simp [decode, commandLength, hop]
      | o :: l :: rest => simp [decode_three, hop, hc]
    · simp [decode_one, hop, hc]

/-- What a complete command is read as, by its opcode (R64). -/
theorem readCommand_eq (cfg : Config) (cw o l : Word) (h1 : fieldZ1 cw = 0#16) (h0 : fieldZ0 cw = 0#4) :
    readCommand cfg cw o l =
      if fieldOp cw = 0x0#4 then .error .opcodeZero
      else if fieldOp cw = 0x1#4 then withoutImmediate cw .init
      else if fieldOp cw = 0x2#4 then .ok (.updb (fieldImm8 cw))
      else if fieldOp cw = 0x3#4 then withoutImmediate cw (.updr (operandInt cfg.idxW o) (operandInt cfg.idxW l))
      else if fieldOp cw = 0x4#4 then withoutImmediate cw .value
      else if fieldOp cw = 0x5#4 then
        if cfg.hasTread then .ok (.tread (fieldImm8 cw)) else .error .noTread
      else .error .reservedOpcode := by
  simp [readCommand, h1, h0]

/-- A word with a reserved field that is not 0 spells no command (R65). -/
theorem readCommand_reserved (cfg : Config) (cw o l : Word) (hz : fieldZ1 cw ≠ 0#16 ∨ fieldZ0 cw ≠ 0#4) :
    readCommand cfg cw o l = .error .reservedField := by
  simp only [readCommand, if_pos hz]

/-- Every OP value, by name or as one that no command has (R64). -/
theorem op_cases (op : BitVec 4) :
    op = 0x0#4 ∨ op = 0x1#4 ∨ op = 0x2#4 ∨ op = 0x3#4 ∨ op = 0x4#4 ∨ op = 0x5#4 ∨ 0x6#4 ≤ op := by
  revert op; decide

/-- `legal(CW)` as conditions on the fields (R65). -/
theorem legal_iff (h : Bool) (cw : Word) :
    legal h cw = true ↔ fieldZ1 cw = 0#16 ∧ fieldZ0 cw = 0#4 ∧
      ((fieldOp cw = 0x1#4 ∨ fieldOp cw = 0x3#4 ∨ fieldOp cw = 0x4#4) ∧ fieldImm8 cw = 0#8 ∨
        fieldOp cw = 0x2#4 ∨ fieldOp cw = 0x5#4 ∧ h = true) := by
  simp only [legal, Bool.and_eq_true, beq_iff_eq, and_assoc]
  refine and_congr_right fun _ => and_congr_right fun _ => ?_
  generalize fieldOp cw = op
  generalize (fieldImm8 cw) = imm
  by_cases hi : imm = 0#8
  · subst hi; revert h op; decide
  · have hb : (imm == 0#8) = false := by simpa using hi
    simp only [hb, hi]; revert h op; decide

/-- A complete command is read as a command exactly when its word is legal (R65). -/
theorem readCommand_ok_iff (cfg : Config) (cw o l : Word) :
    (∃ i, readCommand cfg cw o l = .ok i) ↔ legal cfg.hasTread cw = true := by
  rw [legal_iff]
  by_cases hz : fieldZ1 cw ≠ 0#16 ∨ fieldZ0 cw ≠ 0#4
  · rw [readCommand_reserved cfg cw o l hz]
    refine ⟨fun ⟨i, hi⟩ => by simp at hi, fun hl => ?_⟩
    rcases hz with hz | hz
    · exact absurd hl.1 hz
    · exact absurd hl.2.1 hz
  · simp only [not_or, not_not] at hz
    rw [readCommand_eq cfg cw o l hz.1 hz.2]
    simp only [hz.1, hz.2, withoutImmediate, true_and]
    rcases op_cases (fieldOp cw) with ho | ho | ho | ho | ho | ho | ho
    · simp [ho]
    · by_cases hi : fieldImm8 cw = 0#8 <;> simp [ho, hi]
    · simp [ho]
    · by_cases hi : fieldImm8 cw = 0#8 <;> simp [ho, hi]
    · by_cases hi : fieldImm8 cw = 0#8 <;> simp [ho, hi]
    · cases h : cfg.hasTread <;> simp [ho]
    · have hne : ∀ v : BitVec 4, v < 0x6#4 → fieldOp cw ≠ v := fun v hv he =>
        absurd (he ▸ ho) (BitVec.not_le.mpr hv)
      simp only [hne 0x0#4 (by decide), hne 0x1#4 (by decide), hne 0x2#4 (by decide), hne 0x3#4 (by decide),
        hne 0x4#4 (by decide), hne 0x5#4 (by decide)]
      simp

end Sys2Proof
end

