-- ==== Sys2Proof/Laws/Memory.lean ====
section
/-! SUPPORT. The laws of the source buffer: reading after writing, and that every memory operation keeps the canonical
form. -/

namespace Sys2Proof.Machine

@[simp] theorem Memory.read_nil (i : Nat) : Memory.read [] i = unlistedByte := rfl

/-- An index that no entry names reads as an unlisted one. -/
theorem Memory.read_of_not_listed (m : Memory) (i : Nat) (h : ∀ c ∈ m, c.1 ≠ i) : Memory.read m i = unlistedByte := by
  induction m with
  | nil => rfl
  | cons c rest ih =>
    obtain ⟨a, b⟩ := c
    simp only [Memory.read, if_neg (h (a, b) (by simp))]
    exact ih fun c hc => h c (by simp [hc])

/-- The rest of a canonical list is canonical. -/
theorem Memory.wf_tail {c : Host.Cell} {m : Memory} (h : Memory.wf (c :: m)) : Memory.wf m :=
  ⟨(List.pairwise_cons.mp h.1).2, fun d hd => h.2 d (by simp [hd])⟩

/-- Every entry after the first names a higher index. -/
theorem Memory.wf_head_lt {c : Host.Cell} {m : Memory} (h : Memory.wf (c :: m)) : ∀ d ∈ m, c.1 < d.1 :=
  (List.pairwise_cons.mp h.1).1

/-- Every entry of the list after a write is the one written or one that was there. -/
theorem Memory.mem_write (m : Memory) (i : Nat) (v : Byte) (c : Host.Cell) (h : c ∈ Memory.write m i v) :
    c = (i, v) ∨ c ∈ m := by
  induction m with
  | nil => simp only [Memory.write] at h; split at h <;> simp_all
  | cons d rest ih =>
    obtain ⟨a, b⟩ := d
    simp only [Memory.write] at h
    split at h
    · split at h <;> simp_all
    · split at h
      · split at h <;> simp_all
        tauto
      · rcases List.mem_cons.mp h with h | h
        · simp [h]
        · rcases ih h with h | h <;> simp [h]

/-- A write keeps the canonical form. -/
theorem Memory.write_wf (m : Memory) (i : Nat) (v : Byte) (h : Memory.wf m) : Memory.wf (Memory.write m i v) := by
  induction m with
  | nil => simp only [Memory.write]; split <;> simp_all [Memory.wf]
  | cons d rest ih =>
    obtain ⟨a, b⟩ := d
    have hr := Memory.wf_tail h
    have hlt := Memory.wf_head_lt h
    simp only [Memory.write]
    split
    · rename_i hia
      split
      · exact h
      · rename_i hv
        refine ⟨List.pairwise_cons.mpr ⟨fun c hc => ?_, h.1⟩, fun c hc => ?_⟩
        · rcases List.mem_cons.mp hc with rfl | hc
          · exact hia
          · exact hia.trans (hlt c hc)
        · rcases List.mem_cons.mp hc with rfl | hc
          · exact hv
          · exact h.2 c hc
    · split
      · rename_i hia
        split
        · exact hr
        · rename_i hv
          refine ⟨List.pairwise_cons.mpr ⟨fun c hc => ?_, hr.1⟩, fun c hc => ?_⟩
          · exact hia ▸ hlt c hc
          · rcases List.mem_cons.mp hc with rfl | hc
            · exact hv
            · exact hr.2 c hc
      · rename_i hia hne
        refine ⟨List.pairwise_cons.mpr ⟨fun c hc => ?_, (ih hr).1⟩, fun c hc => ?_⟩
        · rcases Memory.mem_write rest i v c hc with rfl | hc
          · show a < i
            omega
          · exact hlt c hc
        · rcases List.mem_cons.mp hc with rfl | hc
          · exact h.2 _ (by simp)
          · exact (ih hr).2 c hc

/-- Reading after a write: the byte written at its index, every other byte as before. -/
theorem Memory.read_write (m : Memory) (i j : Nat) (v : Byte) (h : Memory.wf m) :
    Memory.read (Memory.write m i v) j = if j = i then v else Memory.read m j := by
  induction m with
  | nil =>
    simp only [Memory.write]
    split <;> rename_i hv
    · simp [Memory.read, hv]
    · by_cases hj : j = i
      · simp [Memory.read, hj]
      · simp [Memory.read, hj, Ne.symm hj]
  | cons d rest ih =>
    obtain ⟨a, b⟩ := d
    have hr := Memory.wf_tail h
    have hlt := Memory.wf_head_lt h
    have hnone : ∀ k, k ≤ a → Memory.read rest k = unlistedByte := fun k hk =>
      Memory.read_of_not_listed rest k fun c hc => by have := hlt c hc; simp only at this; omega
    simp only [Memory.write]
    split
    · rename_i hia
      have hai : a ≠ i := by omega
      split <;> rename_i hv
      · by_cases hj : j = i
        · subst hj; simp [Memory.read, hai, hnone j (by omega), hv]
        · simp [hj]
      · by_cases hj : j = i
        · subst hj; simp [Memory.read]
        · simp [Memory.read, hj, Ne.symm hj]
    · split
      · rename_i hia
        subst hia
        split <;> rename_i hv
        · by_cases hj : j = i
          · subst hj; simp [hnone j le_rfl, hv]
          · simp [Memory.read, hj, Ne.symm hj]
        · by_cases hj : j = i
          · subst hj; simp [Memory.read]
          · simp [Memory.read, hj, Ne.symm hj]
      · rename_i hia hne
        by_cases hja : a = j
        · subst hja
          have : a ≠ i := fun h => hne h.symm
          simp [Memory.read, this]
        · simp [Memory.read, hja, ih hr]

/-- Every entry of a bound sequence names one of its indices. -/
theorem Memory.ofBytes_mem (start : Nat) (bytes : List Byte) (c : Host.Cell) (h : c ∈ Memory.ofBytes start bytes) :
    start ≤ c.1 ∧ c.1 < start + bytes.length := by
  induction bytes generalizing start with
  | nil => simp [Memory.ofBytes] at h
  | cons b bs ih =>
    simp only [Memory.ofBytes] at h
    split at h
    · have := ih (start + 1) h
      simp only [List.length_cons]
      omega
    · rcases List.mem_cons.mp h with rfl | h
      · simp
      · have := ih (start + 1) h
        simp only [List.length_cons]
        omega

/-- A bound sequence is in the canonical form. -/
theorem Memory.ofBytes_wf (start : Nat) (bytes : List Byte) : Memory.wf (Memory.ofBytes start bytes) := by
  induction bytes generalizing start with
  | nil => simp [Memory.ofBytes, Memory.wf]
  | cons b bs ih =>
    simp only [Memory.ofBytes]
    split <;> rename_i hb
    · exact ih (start + 1)
    · refine ⟨List.pairwise_cons.mpr ⟨fun c hc => ?_, (ih (start + 1)).1⟩, fun c hc => ?_⟩
      · have := Memory.ofBytes_mem (start + 1) bs c hc
        show start < c.1
        omega
      · rcases List.mem_cons.mp hc with rfl | hc
        · exact hb
        · exact (ih (start + 1)).2 c hc

/-- A bound sequence reads back byte by byte. -/
theorem Memory.read_ofBytes (start i : Nat) (bytes : List Byte) (hi : i < bytes.length) :
    Memory.read (Memory.ofBytes start bytes) (start + i) = bytes[i] := by
  induction bytes generalizing start i with
  | nil => simp at hi
  | cons b bs ih =>
    simp only [Memory.ofBytes]
    cases i with
    | zero =>
      split <;> rename_i hb
      · rw [Memory.read_of_not_listed _ _ fun c hc => by have := Memory.ofBytes_mem _ _ c hc; omega]
        simp [hb]
      · simp [Memory.read]
    | succ i =>
      have := ih (start + 1) i (by simpa using hi)
      have e : start + 1 + i = start + (i + 1) := by omega
      rw [e] at this
      split
      · simpa using this
      · simpa [Memory.read] using this

/-! ### The buffer -/

@[simp] theorem Src.write_len (src : Src) (i : Nat) (b : Byte) : (src.write i b).len = src.len := by
  unfold Src.write; split <;> rfl

@[simp] theorem Src.write_racing (src : Src) (i : Nat) (b : Byte) : (src.write i b).racing = src.racing := by
  unfold Src.write; split <;> rfl

/-- A write to the buffer keeps its canonical form. -/
theorem Src.write_wf (src : Src) (i : Nat) (b : Byte) (h : Memory.wf src.mem) : Memory.wf (src.write i b).mem := by
  unfold Src.write
  split
  · exact Memory.write_wf _ _ _ h
  · exact h

/-- A write to the buffer lists no byte that the buffer does not have. -/
theorem Src.write_bounded (src : Src) (i : Nat) (b : Byte) (h : ∀ c ∈ src.mem, c.1 < src.len) :
    ∀ c ∈ (src.write i b).mem, c.1 < src.len := by
  unfold Src.write
  split
  · intro c hc
    rcases Memory.mem_write _ _ _ _ hc with rfl | hc
    · assumption
    · exact h c hc
  · exact h

/-- Reading the buffer after a write to it. -/
theorem Src.read_write (src : Src) (i j : Nat) (b : Byte) (h : Memory.wf src.mem) (hj : j < src.len) :
    Memory.read (src.write i b).mem j = if j = i then b else Memory.read src.mem j := by
  unfold Src.write
  split
  · exact Memory.read_write _ _ _ _ h
  · rename_i hi
    rw [if_neg (by omega)]

/-- What a run of host writes leaves of the buffer, but for its bytes. -/
theorem Src.foldl_write_len (ws : List Host.Cell) (src : Src) :
    (ws.foldl (fun s c => s.write c.1 c.2) src).len = src.len := by
  induction ws generalizing src with
  | nil => rfl
  | cons w ws ih => simp only [List.foldl_cons, ih, Src.write_len]

/-- A run of host writes keeps the canonical form, and lists no byte that the buffer does not have. -/
theorem Src.foldl_write_wf (ws : List Host.Cell) (src : Src) (h : Memory.wf src.mem) :
    Memory.wf (ws.foldl (fun s c => s.write c.1 c.2) src).mem ∧
      ((∀ c ∈ src.mem, c.1 < src.len) → ∀ c ∈ (ws.foldl (fun s c => s.write c.1 c.2) src).mem, c.1 < src.len) := by
  induction ws generalizing src with
  | nil => exact ⟨h, id⟩
  | cons w ws ih =>
    have := ih (src.write w.1 w.2) (Src.write_wf _ _ _ h)
    simp only [Src.write_len] at this
    exact ⟨this.1, fun hb => this.2 (Src.write_bounded _ _ _ hb)⟩

/-- The racing writes do not change the buffer's length. -/
@[simp] theorem Src.settle_len (src : Src) : src.settle.len = src.len := Src.foldl_write_len src.racing src

@[simp] theorem Src.settle_racing (src : Src) : src.settle.racing = [] := rfl

/-- The racing writes keep the canonical form. -/
theorem Src.settle_wf (src : Src) (h : Memory.wf src.mem) : Memory.wf src.settle.mem :=
  (Src.foldl_write_wf src.racing src h).1

theorem Src.settle_bounded (src : Src) (h : Memory.wf src.mem) (hb : ∀ c ∈ src.mem, c.1 < src.len) :
    ∀ c ∈ src.settle.mem, c.1 < src.len :=
  (Src.foldl_write_wf src.racing src h).2 hb

/-- Where the host writes nothing meanwhile, the buffer stays as it is. -/
theorem Src.settle_of_no_racing (src : Src) (h : src.racing = []) : src.settle = src := by
  cases src; simp_all [Src.settle]

/-- Where the host writes nothing meanwhile, every read is the buffer's byte. -/
theorem srcRead_of_no_racing (draw : Nat) (src : Src) (h : src.racing = []) :
    srcRead draw src = Memory.read src.mem := by
  funext i; simp [srcRead, Src.races, h]

/-- An index races exactly when some racing write names it. -/
theorem Src.races_iff (src : Src) (i : Nat) : src.races i = true ↔ ∃ b, (i, b) ∈ src.racing := by
  simp only [Src.races, List.any_eq_true, beq_iff_eq]
  constructor
  · rintro ⟨⟨a, b⟩, hc, rfl⟩; exact ⟨b, hc⟩
  · rintro ⟨b, hb⟩; exact ⟨(i, b), hb, rfl⟩

@[simp] theorem Src.bind_racing (bytes : List Byte) : (Src.bind bytes).racing = [] := rfl
@[simp] theorem Src.bind_len (bytes : List Byte) : (Src.bind bytes).len = bytes.length := rfl

end Sys2Proof.Machine
end

