-- ==== Sys2Proof/Laws/State.lean ====
section
/-! SUPPORT. One lemma for each field of each update, true by unfolding, so that no later proof unfolds a record update. -/

namespace Sys2Proof.Machine

/-! ### Replacing an engine -/

section SetEngineAt
variable (s : State) (k : Nat) (e : Engine)

@[simp] theorem State.setEngineAt_cfg : (s.setEngineAt k e).cfg = s.cfg := rfl
@[simp] theorem State.setEngineAt_tbl : (s.setEngineAt k e).tbl = s.tbl := rfl
@[simp] theorem State.setEngineAt_phase : (s.setEngineAt k e).phase = s.phase := rfl
@[simp] theorem State.setEngineAt_cur : (s.setEngineAt k e).cur = s.cur := rfl
@[simp] theorem State.setEngineAt_agenda : (s.setEngineAt k e).agenda = s.agenda := rfl
@[simp] theorem State.setEngineAt_draws : (s.setEngineAt k e).draws = s.draws := rfl
@[simp] theorem State.setEngineAt_engines : (s.setEngineAt k e).engines = s.engines.set k e := rfl

@[simp] theorem State.setEngine_cfg : (s.setEngine e).cfg = s.cfg := rfl
@[simp] theorem State.setEngine_tbl : (s.setEngine e).tbl = s.tbl := rfl
@[simp] theorem State.setEngine_phase : (s.setEngine e).phase = s.phase := rfl
@[simp] theorem State.setEngine_cur : (s.setEngine e).cur = s.cur := rfl
@[simp] theorem State.setEngine_agenda : (s.setEngine e).agenda = s.agenda := rfl
@[simp] theorem State.setEngine_draws : (s.setEngine e).draws = s.draws := rfl
@[simp] theorem State.setEngine_engines : (s.setEngine e).engines = s.engines.set s.cur e := rfl

/-- The later replacement of the served engine stands. -/
@[simp] theorem State.setEngine_setEngine (e' : Engine) : (s.setEngine e).setEngine e' = s.setEngine e' := by
  simp [State.setEngine, State.setEngineAt]

end SetEngineAt

/-! ### Ending a command -/

section Respond
variable (e : Engine) (code : RCode) (data : U64) (err : Err)

@[simp] theorem Engine.respond_crc : (e.respond code data).crc = e.crc := rfl
@[simp] theorem Engine.respond_status : (e.respond code data).status = e.status := rfl
@[simp] theorem Engine.respond_accepted : (e.respond code data).accepted = e.accepted := rfl
@[simp] theorem Engine.respond_port : (e.respond code data).port = e.port := rfl
@[simp] theorem Engine.respond_src : (e.respond code data).src = e.src := rfl
@[simp] theorem Engine.respond_rsp : (e.respond code data).rsp = e.rsp ++ [⟨code, data⟩] := rfl

@[simp] theorem Engine.raise_crc : (e.raise err).crc = e.crc := rfl
@[simp] theorem Engine.raise_status : (e.raise err).status = e.status ||| err.statusMask := rfl
@[simp] theorem Engine.raise_accepted : (e.raise err).accepted = e.accepted := rfl
@[simp] theorem Engine.raise_port : (e.raise err).port = e.port := rfl
@[simp] theorem Engine.raise_src : (e.raise err).src = e.src := rfl
@[simp] theorem Engine.raise_rsp : (e.raise err).rsp = e.rsp ++ [⟨err.code, 0#64⟩] := rfl

end Respond

/-! ### Reset and the ports -/

section Ports
variable (e : Engine) (s : State) (ws : List Word)

@[simp] theorem Engine.inReset_crc : e.inReset.crc = preset := rfl
@[simp] theorem Engine.inReset_status : e.inReset.status = 0#32 := rfl
@[simp] theorem Engine.inReset_accepted : e.inReset.accepted = [] := rfl
@[simp] theorem Engine.inReset_rsp : e.inReset.rsp = [] := rfl
@[simp] theorem Engine.inReset_port : e.inReset.port = e.port := rfl
@[simp] theorem Engine.inReset_src : e.inReset.src = e.src := rfl

@[simp] theorem State.assertReset_cfg : s.assertReset.cfg = s.cfg := rfl
@[simp] theorem State.assertReset_tbl : s.assertReset.tbl = s.tbl := rfl
@[simp] theorem State.assertReset_phase : s.assertReset.phase = .asserted := rfl
@[simp] theorem State.assertReset_cur : s.assertReset.cur = s.cur := rfl
@[simp] theorem State.assertReset_agenda : s.assertReset.agenda = s.agenda := rfl
@[simp] theorem State.assertReset_draws : s.assertReset.draws = s.draws := rfl
@[simp] theorem State.assertReset_engines : s.assertReset.engines = s.engines.map Engine.inReset := rfl

@[simp] theorem Engine.taken_crc : (e.taken ws).crc = e.crc := rfl
@[simp] theorem Engine.taken_status : (e.taken ws).status = e.status := rfl
@[simp] theorem Engine.taken_accepted : (e.taken ws).accepted = [] := rfl
@[simp] theorem Engine.taken_port : (e.taken ws).port = ws := rfl
@[simp] theorem Engine.taken_rsp : (e.taken ws).rsp = e.rsp := rfl
@[simp] theorem Engine.taken_src : (e.taken ws).src = e.src := rfl

@[simp] theorem Engine.held_crc : e.held.crc = e.crc := rfl
@[simp] theorem Engine.held_status : e.held.status = e.status := rfl
@[simp] theorem Engine.held_accepted : e.held.accepted = e.stream := rfl
@[simp] theorem Engine.held_port : e.held.port = [] := rfl
@[simp] theorem Engine.held_rsp : e.held.rsp = e.rsp := rfl
@[simp] theorem Engine.held_src : e.held.src = e.src := rfl

@[simp] theorem Engine.present_crc : (e.present ws).crc = e.crc := rfl
@[simp] theorem Engine.present_status : (e.present ws).status = e.status := rfl
@[simp] theorem Engine.present_accepted : (e.present ws).accepted = e.accepted := rfl
@[simp] theorem Engine.present_port : (e.present ws).port = e.port ++ ws := rfl
@[simp] theorem Engine.present_rsp : (e.present ws).rsp = e.rsp := rfl
@[simp] theorem Engine.present_src : (e.present ws).src = e.src := rfl

@[simp] theorem Engine.takeResponse_crc : e.takeResponse.crc = e.crc := rfl
@[simp] theorem Engine.takeResponse_status : e.takeResponse.status = e.status := rfl
@[simp] theorem Engine.takeResponse_accepted : e.takeResponse.accepted = e.accepted := rfl
@[simp] theorem Engine.takeResponse_port : e.takeResponse.port = e.port := rfl
@[simp] theorem Engine.takeResponse_rsp : e.takeResponse.rsp = e.rsp.tail := rfl
@[simp] theorem Engine.takeResponse_src : e.takeResponse.src = e.src := rfl

end Ports

/-- Releasing reset touches nothing but the phase. -/
theorem State.releaseReset_eq (s : State) :
    s.releaseReset = { s with phase := if s.phase = .asserted then .generating (GenState.start 0) else s.phase } := by
  cases s with
  | mk cfg tbl phase engines cur agenda draws => cases phase <;> rfl

/-- An iteration of the generator touches nothing but the phase and the table. -/
theorem State.generate_eq (s : State) (g : GenState) :
    s.generate g =
      { s with
        phase := ((g.advance s.cfg.poly s.tbl).1.elim .ready .generating)
        tbl := (g.advance s.cfg.poly s.tbl).2 } := by
  unfold State.generate
  rcases g.advance s.cfg.poly s.tbl with ⟨_ | _, _⟩ <;> rfl

end Sys2Proof.Machine
end

