-- ==== Sys2Proof/Laws/Table.lean ====
section
/-! SUPPORT. The table generator and the fold: the entries of a generated table, and how folds of sequences join. -/

namespace Sys2Proof.Machine

/-! ### The table -/

/-- An entry of a generated table (R81). -/
@[simp] theorem genTable_entry (poly : U64) (b : Byte) : (genTable poly).entry b = gen poly b := by
  simp [genTable, Table.entry]

/-- Tables with the same entries are equal. -/
theorem table_ext (t t' : Table) (h : ∀ b : Byte, t.entry b = t'.entry b) : t = t' := by
  apply Vector.ext
  intro i hi
  have := h (BitVec.ofNat 8 i)
  simpa [Table.entry, Nat.mod_eq_of_lt hi] using this

/-- Reading an entry after one is stored. -/
theorem entry_setIfInBounds (t : Table) (i : Nat) (v : U64) (b : Byte) :
    Table.entry (t.setIfInBounds i v) b = if i = b.toNat then v else t.entry b := by
  simp only [Table.entry, Vector.getElem_setIfInBounds]

/-- Iterations after iterations (R80). -/
theorem genRun_succ (poly : U64) (k : Nat) (r : U64) : genRun poly (k + 1) r = genStep poly (genRun poly k r) := by
  induction k generalizing r with
  | zero => rfl
  | succ k ih => rw [genRun, ih, genRun]

/-- One iteration is linear over XOR. -/
theorem genStep_xor (poly a b : U64) : genStep poly (a ^^^ b) = genStep poly a ^^^ genStep poly b := by
  simp only [genStep, BitVec.getLsbD_xor, BitVec.ushiftRight_xor_distrib]
  cases a.getLsbD 0 <;> cases b.getLsbD 0 <;> simp
  · ac_rfl
  · ac_rfl
  · rw [show a >>> 1 ^^^ poly ^^^ (b >>> 1 ^^^ poly) = a >>> 1 ^^^ b >>> 1 ^^^ (poly ^^^ poly) by ac_rfl]
    simp

/-- Any number of iterations is linear over XOR. -/
theorem genRun_xor (poly : U64) (k : Nat) (a b : U64) :
    genRun poly k (a ^^^ b) = genRun poly k a ^^^ genRun poly k b := by
  induction k generalizing a b with
  | zero => rfl
  | succ k ih => simp only [genRun, genStep_xor, ih]

/-! ### Folding sequences -/

@[simp] theorem foldSeq_nil (t : Table) (c : U64) : foldSeq t c [] = c := rfl
@[simp] theorem foldSeq_cons (t : Table) (c : U64) (x : Byte) (xs : List Byte) :
    foldSeq t c (x :: xs) = foldSeq t (fold t c x) xs := rfl

/-- Folding a joined sequence is folding its parts in order. -/
theorem foldSeq_append (t : Table) (c : U64) (xs ys : List Byte) :
    foldSeq t c (xs ++ ys) = foldSeq t (foldSeq t c xs) ys := by
  induction xs generalizing c with
  | nil => rfl
  | cons x xs ih => simp [ih]

/-- The bytes of a range, index by index. -/
theorem bytesFrom_eq_map (rd : Nat → Byte) (start count : Nat) :
    bytesFrom rd start count = (List.range count).map fun k => rd (start + k) := by
  induction count generalizing start with
  | zero => rfl
  | succ count ih =>
    rw [bytesFrom, ih, List.range_succ_eq_map]
    simp only [List.map_cons, List.map_map, Function.comp_def, Nat.add_zero]
    simp only [Nat.add_comm, Nat.add_left_comm]

/-- The bytes of a range depend only on what its indices read as. -/
theorem bytesFrom_congr (rd rd' : Nat → Byte) (start count : Nat)
    (h : ∀ i, start ≤ i → i < start + count → rd i = rd' i) : bytesFrom rd start count = bytesFrom rd' start count := by
  induction count generalizing start with
  | zero => rfl
  | succ count ih =>
    rw [bytesFrom, bytesFrom, h start le_rfl (by omega), ih (start + 1) fun i h1 h2 => h i (by omega) (by omega)]

/-- The loop of FOLD_UNTIL_FAULT over indices that are all in the buffer is a fold of its bytes (R108). -/
theorem foldUntil_inside (t : Table) (rd : Nat → Byte) (n count start : Nat) (c : U64) (h : start + count ≤ n) :
    foldUntil t rd n count start c = (foldSeq t c (bytesFrom rd start count), true) := by
  induction count generalizing start c with
  | zero => rfl
  | succ count ih =>
    have := ih (start + 1) (fold t c (rd start)) (by omega)
    rw [foldUntil, if_neg (by omega)]
    simpa [bytesFrom] using this

/-- The loop of FOLD_UNTIL_FAULT that runs past the end of the buffer folds what is in it and stops (R108). -/
theorem foldUntil_past_end (t : Table) (rd : Nat → Byte) (n count start : Nat) (c : U64) (hs : start ≤ n)
    (h : n < start + count) :
    foldUntil t rd n count start c = (foldSeq t c (bytesFrom rd start (n - start)), false) := by
  induction count generalizing start c with
  | zero => omega
  | succ count ih =>
    by_cases he : start = n
    · subst he; rw [foldUntil, if_pos (by omega)]; simp [bytesFrom]
    · have := ih (start + 1) (fold t c (rd start)) (by omega) (by omega)
      rw [foldUntil, if_neg (by omega), show n - start = (n - (start + 1)) + 1 by omega]
      simpa [bytesFrom] using this

/-- The loop of FOLD_UNTIL_FAULT that begins outside the buffer folds nothing (R108). -/
theorem foldUntil_outside (t : Table) (rd : Nat → Byte) (n count : Nat) (i : Int) (c : U64)
    (h : i < 0 ∨ (n : Int) ≤ i) : foldUntil t rd n (count + 1) i c = (c, false) := by
  rw [foldUntil, if_pos h]

end Sys2Proof.Machine
end

