-- ==== Sys2Proof/Laws/Exec.lean ====
section
/-! SUPPORT. What a shared operation and a command can do, once for all: every command is one change of the served engine. -/

namespace Sys2Proof.Machine

/-! ### One engine of the system -/

/-- A change of an engine that there is. -/
theorem State.onEngineAt_some {s : State} {k : Nat} {e : Engine} (f : Engine → Engine) (h : s.engines[k]? = some e) :
    s.onEngineAt k f = .next (s.setEngineAt k (f e)) := by simp [State.onEngineAt, h]

/-- A change of an engine that there is not. -/
theorem State.onEngineAt_none {s : State} {k : Nat} (f : Engine → Engine) (h : s.engines[k]? = none) :
    s.onEngineAt k f = .fault .noSuchEngine := by simp [State.onEngineAt, h]

/-- A change of the served engine. -/
theorem State.onEngine_some {s : State} {e : Engine} (f : Engine → Engine) (h : s.engines[s.cur]? = some e) :
    s.onEngine f = .next (s.setEngine (f e)) := State.onEngineAt_some f h

/-- Everything a change of one engine can answer. -/
theorem State.onEngineAt_next {s t : State} {k : Nat} {f : Engine → Engine} (h : s.onEngineAt k f = .next t) :
    ∃ e, s.engines[k]? = some e ∧ t = s.setEngineAt k (f e) := by
  unfold State.onEngineAt at h
  split at h
  · rename_i e he
    exact ⟨e, he, by injection h with h; exact h.symm⟩
  · cases h

/-- The replaced engine is there. -/
theorem State.setEngineAt_self {s : State} {k : Nat} {e : Engine} (e' : Engine) (h : s.engines[k]? = some e) :
    (s.setEngineAt k e').engines[k]? = some e' := by
  have := (List.getElem?_eq_some_iff.mp h).1
  simp [this]

/-- The replaced engine is the served one. -/
theorem State.setEngine_self {s : State} {e : Engine} (e' : Engine) (h : s.engines[s.cur]? = some e) :
    (s.setEngine e').engines[s.cur]? = some e' := State.setEngineAt_self e' h

/-- Every other engine is as it was. -/
theorem State.setEngineAt_other (s : State) {k j : Nat} (e' : Engine) (h : j ≠ k) :
    (s.setEngineAt k e').engines[j]? = s.engines[j]? := by
  simp [Ne.symm h]

/-! ### Commands -/

/-- What a command does to its engine, with the parameters, the table and the counter of the system. -/
def effect (cfg : Config) (t : Table) (draw : Nat) : Instr → Engine → Engine
  | .init, e => Engine.respond { e with crc := preset } .ok 0#64
  | .updb x, e => Engine.respond { e with crc := fold t e.crc x } .ok 0#64
  | .updr off len, e => updrEngine cfg.rangePolicy t draw off len e
  | .value, e => e.respond .ok (~~~e.crc)
  | .tread index, e => if cfg.hasTread then e.respond .ok (t.entry index) else e.raise .illegalCommand

/-- How much a command advances the counter of UPDR commands. -/
def drawStep : Instr → Nat
  | .init => 0
  | .updb _ => 0
  | .updr _ _ => 1
  | .value => 0
  | .tread _ => 0

/-- Every command is one change of the served engine (R44, R103). -/
theorem exec_eq (i : Instr) (s : State) :
    exec i s =
      State.onEngine { s with draws := s.draws + drawStep i } (effect s.cfg s.tbl s.draws i) := by
  cases i <;> rfl

/-- A command on an engine that there is completes. -/
theorem exec_some (i : Instr) {s : State} {e : Engine} (h : s.engines[s.cur]? = some e) :
    exec i s = .next (State.setEngine { s with draws := s.draws + drawStep i } (effect s.cfg s.tbl s.draws i e)) := by
  rw [exec_eq]
  exact State.onEngine_some _ h

/-- Everything a command can answer. -/
theorem exec_next {i : Instr} {s t : State} (h : exec i s = .next t) :
    ∃ e, s.engines[s.cur]? = some e ∧
      t = State.setEngine { s with draws := s.draws + drawStep i } (effect s.cfg s.tbl s.draws i e) := by
  rw [exec_eq] at h
  exact State.onEngineAt_next h

/-- UPDR on its engine: the register the policy gives, the buffer after the host's writes, and the response. -/
theorem updrEngine_eq (policy : RangePolicy) (t : Table) (draw : Nat) (off len : Int) (e : Engine) :
    updrEngine policy t draw off len e =
      let result := updateRange policy t (srcRead draw e.src) e.src.len off len e.crc
      if result.2 then
        { e with crc := result.1, src := e.src.settle, rsp := e.rsp ++ [⟨.ok, 0#64⟩] }
      else
        { e with
          crc := result.1, src := e.src.settle, status := e.status ||| 1#32, rsp := e.rsp ++ [⟨.range, 0#64⟩] } := rfl

section UpdrEngine
variable (policy : RangePolicy) (t : Table) (draw : Nat) (off len : Int) (e : Engine)

@[simp] theorem updrEngine_crc :
    (updrEngine policy t draw off len e).crc =
      (updateRange policy t (srcRead draw e.src) e.src.len off len e.crc).1 := by
  simp only [updrEngine]; split <;> rfl

@[simp] theorem updrEngine_src : (updrEngine policy t draw off len e).src = e.src.settle := by
  simp only [updrEngine]; split <;> rfl

@[simp] theorem updrEngine_accepted : (updrEngine policy t draw off len e).accepted = e.accepted := by
  simp only [updrEngine]; split <;> rfl

@[simp] theorem updrEngine_port : (updrEngine policy t draw off len e).port = e.port := by
  simp only [updrEngine]; split <;> rfl

end UpdrEngine

/-- No command touches what its engine has taken or what waits at its port. -/
@[simp] theorem effect_accepted (cfg : Config) (t : Table) (draw : Nat) (i : Instr) (e : Engine) :
    (effect cfg t draw i e).accepted = e.accepted := by
  cases i <;> simp only [effect, updrEngine_accepted, Engine.respond_accepted]
  split <;> rfl

@[simp] theorem effect_port (cfg : Config) (t : Table) (draw : Nat) (i : Instr) (e : Engine) :
    (effect cfg t draw i e).port = e.port := by
  cases i <;> simp only [effect, updrEngine_port, Engine.respond_port]
  split <;> rfl

/-- The source buffer after a command: the host's racing writes land during an UPDR; nothing else changes it. -/
theorem effect_src (cfg : Config) (t : Table) (draw : Nat) (i : Instr) (e : Engine) :
    (effect cfg t draw i e).src = e.src ∨ (effect cfg t draw i e).src = e.src.settle := by
  cases i with
  | init => exact .inl rfl
  | updb x => exact .inl rfl
  | updr off len => exact .inr (updrEngine_src ..)
  | value => exact .inl rfl
  | tread index => left; simp only [effect]; split <;> rfl

/-- STATUS after a command: as before, or with the bit of the error that ended it (R140, R141, R144). -/
theorem effect_status (cfg : Config) (t : Table) (draw : Nat) (i : Instr) (e : Engine) :
    (effect cfg t draw i e).status = e.status ∨ ∃ err, (effect cfg t draw i e).status = setStatus e.status err := by
  cases i with
  | init => exact .inl rfl
  | updb x => exact .inl rfl
  | updr off len =>
    simp only [effect, updrEngine]
    split
    · exact .inl rfl
    · exact .inr ⟨_, rfl⟩
  | value => exact .inl rfl
  | tread index =>
    simp only [effect]
    split
    · exact .inl rfl
    · exact .inr ⟨_, rfl⟩

/-! ### The STATUS register -/

/-- Setting an error bit leaves the other bit and the reserved bits (R23, R24). -/
theorem errRange_setStatus (st : Word) (err : Err) :
    errRange (setStatus st err) = (errRange st || decide (err = .rangeError)) := by
  cases err <;> simp [errRange, setStatus, Err.statusMask]

theorem errIllegal_setStatus (st : Word) (err : Err) :
    errIllegal (setStatus st err) = (errIllegal st || decide (err = .illegalCommand)) := by
  cases err <;> simp [errIllegal, setStatus, Err.statusMask]

theorem statusReserved_setStatus (st : Word) (err : Err) :
    statusReserved (setStatus st err) = statusReserved st := by
  apply BitVec.eq_of_getLsbD_eq
  intro i hi
  have h1 : ∀ m : Word, m = 0x1#32 ∨ m = 0x2#32 → ∀ j : Fin 32, 2 ≤ j.val → m.getLsbD j.val = false := by
    rintro m (rfl | rfl) <;> decide
  have hm : err.statusMask = 0x1#32 ∨ err.statusMask = 0x2#32 := by cases err <;> simp [Err.statusMask]
  simp [statusReserved, setStatus, hi, h1 _ hm ⟨2 + i, by omega⟩ (by simp)]

end Sys2Proof.Machine
end

