-- ==== Sys2Proof/Laws/PerInstr.lean ====
section
/-! SUPPORT. Statements for every command, one lemma for each constructor: how many words an encoding has. -/

namespace Sys2Proof.Laws.EncodingLength

/-- The encoding of a command has as many words as its first word's OP says (R62). -/
def Statement (i : Instr) : Prop := ∃ cw operands, encode i = cw :: operands ∧ (encode i).length = commandLength cw

theorem init : Statement .init := ⟨_, _, rfl, by simp [encode, commandLength]⟩

theorem updb (x : Byte) : Statement (.updb x) := ⟨_, _, rfl, by simp [encode, commandLength]⟩

theorem updr (off len : Int) : Statement (.updr off len) := ⟨_, _, rfl, by simp [encode, commandLength]⟩

theorem value : Statement .value := ⟨_, _, rfl, by simp [encode, commandLength]⟩

theorem tread (index : Byte) : Statement (.tread index) := ⟨_, _, rfl, by simp [encode, commandLength]⟩

end Sys2Proof.Laws.EncodingLength
end

