-- ==== Sys2Proof/Laws/Step.lean ====
section
/-! SUPPORT. What one step can do, once for all. -/

namespace Sys2Proof.Machine

/-! ### An engine takes a command -/

/-- A whole legal command is executed. -/
theorem runCommand_command {s : State} {e : Engine} {i : Instr} {rest : List Word} (he : s.engines[s.cur]? = some e)
    (hd : decode s.cfg e.stream = .command i rest) :
    s.runCommand = exec i (s.setEngine (e.taken rest)) := by
  simp [State.runCommand, he, hd]

/-- A whole illegal command ends in IllegalCommand. -/
theorem runCommand_illegal {s : State} {e : Engine} {why : IllegalReason} {rest : List Word}
    (he : s.engines[s.cur]? = some e) (hd : decode s.cfg e.stream = .illegal why rest) :
    s.runCommand = .next (s.setEngine ((e.taken rest).raise .illegalCommand)) := by
  simp only [State.runCommand, he, hd]
  rw [State.onEngine_some _ (State.setEngine_self (e.taken rest) he), State.setEngine_setEngine]

/-- An incomplete command holds the engine. -/
theorem runCommand_incomplete {s : State} {e : Engine} (he : s.engines[s.cur]? = some e)
    (hd : decode s.cfg e.stream = .incomplete) : s.runCommand = .next (s.setEngine e.held) := by
  simp [State.runCommand, he, hd]

/-- Everything taking a command can answer: the served engine is replaced, and the counter of UPDR commands may
advance. -/
theorem runCommand_next {s t : State} (h : s.runCommand = .next t) :
    ∃ e e' d, s.engines[s.cur]? = some e ∧ t = State.setEngine { s with draws := d } e' ∧
      ((∃ i rest, decode s.cfg e.stream = .command i rest ∧
          e' = effect s.cfg s.tbl s.draws i (e.taken rest) ∧ d = s.draws + drawStep i) ∨
        (∃ why rest, decode s.cfg e.stream = .illegal why rest ∧
          e' = (e.taken rest).raise .illegalCommand ∧ d = s.draws) ∨
        (decode s.cfg e.stream = .incomplete ∧ e' = e.held ∧ d = s.draws)) := by
  cases he : s.engines[s.cur]? with
  | none => simp [State.runCommand, he] at h
  | some e =>
    cases hd : decode s.cfg e.stream with
    | command i rest =>
      rw [runCommand_command he hd, exec_some i (State.setEngine_self _ he)] at h
      injection h with h
      refine ⟨e, _, s.draws + drawStep i, rfl, ?_, .inl ⟨i, rest, hd, rfl, rfl⟩⟩
      rw [← h]
      simp [State.setEngine, State.setEngineAt]
    | illegal why rest =>
      rw [runCommand_illegal he hd] at h
      injection h with h
      exact ⟨e, _, s.draws, rfl, h.symm, .inr (.inl ⟨why, rest, hd, rfl, rfl⟩)⟩
    | incomplete =>
      rw [runCommand_incomplete he hd] at h
      injection h with h
      exact ⟨e, _, s.draws, rfl, h.symm, .inr (.inr ⟨hd, rfl, rfl⟩)⟩

/-- Everything the machine can do by itself: nothing, an iteration of the generator, or a command. -/
theorem serve_next {s t : State} (h : s.serve = .next t) :
    (s.phase = .asserted ∧ t = s) ∨ (∃ g, s.phase = .generating g ∧ t = s.generate g) ∨
      (s.phase = .ready ∧ s.runCommand = .next t) := by
  unfold State.serve at h
  split at h
  · rename_i hp
    injection h with h
    exact .inl ⟨hp, h.symm⟩
  · rename_i g hp
    injection h with h
    exact .inr (.inl ⟨g, hp, h.symm⟩)
  · rename_i hp
    exact .inr (.inr ⟨hp, h⟩)

/-! ### A step -/

/-- With nothing on the agenda the machine goes on by itself. -/
theorem step_of_empty_agenda {s : State} (h : s.agenda = []) : step s = s.serve := by
  simp [step, State.advance, h]

/-- With an engine named, that engine goes on. -/
theorem step_of_serve {s : State} {k : Nat} {rest : List Input} (h : s.agenda = .serve k :: rest)
    (hk : k < s.engines.length) : step s = State.serve { s with agenda := rest, cur := k } := by
  simp [step, State.advance, h, State.accept, hk]

/-- Every other input is all that the step does. -/
theorem step_of_input {s : State} {x : Input} {rest : List Input} (h : s.agenda = x :: rest) (hx : ∀ k, x ≠ .serve k) :
    step s = State.accept { s with agenda := rest } x := by
  simp only [step, State.advance, h]
  cases x with
  | serve k => exact absurd rfl (hx k)
  | _ => cases State.accept { s with agenda := rest } _ <;> rfl

/-- A step that is an engine's turn is that engine going on. -/
theorem step_of_turn {s u : State} (h : s.turn u) : step s = u.serve := by
  rcases h with ⟨ha, rfl⟩ | ⟨k, more, ha, hk, rfl⟩
  · exact step_of_empty_agenda ha
  · exact step_of_serve ha hk

/-- A turn leaves everything but the agenda and the number of the served engine. -/
theorem State.turn_keeps {s u : State} (h : s.turn u) :
    u.cfg = s.cfg ∧ u.tbl = s.tbl ∧ u.phase = s.phase ∧ u.engines = s.engines ∧ u.draws = s.draws := by
  rcases h with ⟨_, rfl⟩ | ⟨k, more, _, _, rfl⟩ <;> exact ⟨rfl, rfl, rfl, rfl, rfl⟩

/-- A step of an engine that awaits a stream, with reset complete, takes a command from it. -/
theorem step_of_awaits {s u : State} {e : Engine} {ws : List Word} (h : s.awaits u e ws) : step s = u.runCommand := by
  rw [step_of_turn h.1, State.serve, h.2.1]

/-- A step of an engine that awaits a whole legal command executes it. -/
theorem step_of_command {s u : State} {e : Engine} {ws rest : List Word} {i : Instr} (h : s.awaits u e ws)
    (hd : decode s.cfg ws = .command i rest) : step s = exec i (u.setEngine (e.taken rest)) := by
  rw [step_of_awaits h]
  obtain ⟨ht, -, he, rfl⟩ := h
  exact runCommand_command he (by rwa [(State.turn_keeps ht).1])

/-- A step of an engine that awaits a whole illegal command ends in IllegalCommand. -/
theorem step_of_illegal {s u : State} {e : Engine} {ws rest : List Word} {why : IllegalReason} (h : s.awaits u e ws)
    (hd : decode s.cfg ws = .illegal why rest) : s.endsInIllegalCommand u e rest := by
  rw [State.endsInIllegalCommand, step_of_awaits h]
  obtain ⟨ht, -, he, rfl⟩ := h
  exact runCommand_illegal he (by rwa [(State.turn_keeps ht).1])

/-- A step of an engine that awaits an incomplete command holds it. -/
theorem step_of_incomplete {s u : State} {e : Engine} {ws : List Word} (h : s.awaits u e ws)
    (hd : decode s.cfg ws = .incomplete) : step s = .next (u.setEngine e.held) := by
  rw [step_of_awaits h]
  obtain ⟨ht, -, he, rfl⟩ := h
  exact runCommand_incomplete he (by rwa [(State.turn_keeps ht).1])

/-- Everything a step can do: go on by itself, go on with the engine that the agenda names, or take an input. -/
theorem step_next {s t : State} (h : step s = .next t) :
    (s.agenda = [] ∧ s.serve = .next t) ∨
      (∃ k rest, s.agenda = .serve k :: rest ∧ k < s.engines.length ∧
        State.serve { s with agenda := rest, cur := k } = .next t) ∨
      (∃ x rest, s.agenda = x :: rest ∧ (∀ k, x ≠ .serve k) ∧ State.accept { s with agenda := rest } x = .next t) := by
  cases ha : s.agenda with
  | nil => exact .inl ⟨rfl, by rwa [step_of_empty_agenda ha] at h⟩
  | cons x rest =>
    cases x with
    | serve k =>
      by_cases hk : k < s.engines.length
      · exact .inr (.inl ⟨k, rest, rfl, hk, by rwa [step_of_serve ha hk] at h⟩)
      · simp [step, State.advance, ha, State.accept, hk] at h
    | _ => exact .inr (.inr ⟨_, rest, rfl, by simp, by rwa [step_of_input ha (by simp)] at h⟩)

/-- Everything an input can do: nothing but to change one engine's port, buffer or responses, to set whose turn it is,
or to drive reset. -/
theorem accept_next {s t : State} {x : Input} (h : s.accept x = .next t) :
    (∃ k, x = .serve k ∧ k < s.engines.length ∧ t = { s with cur := k }) ∨
      (∃ k ws e, x = .present k ws ∧ s.engines[k]? = some e ∧ t = s.setEngineAt k (e.present ws)) ∨
      (∃ k bytes e, x = .bindSrc k bytes ∧ bytes.length ≤ s.cfg.srcLenMax ∧ s.engines[k]? = some e ∧
        t = s.setEngineAt k { e with src := Src.bind bytes }) ∨
      (∃ k index b e, x = .writeSrc k index b ∧ s.engines[k]? = some e ∧
        t = s.setEngineAt k { e with src := e.src.write index b }) ∨
      (∃ k index b e, x = .writeSrcDuring k index b ∧ s.engines[k]? = some e ∧
        t = s.setEngineAt k { e with src := { e.src with racing := e.src.racing ++ [(index, b)] } }) ∨
      (∃ k e, x = .takeResponse k ∧ s.engines[k]? = some e ∧ t = s.setEngineAt k e.takeResponse) ∨
      (x = .assertReset ∧ t = s.assertReset) ∨ (x = .releaseReset ∧ t = s.releaseReset) := by
  cases x with
  | serve k =>
    simp only [State.accept] at h
    split at h
    · injection h with h
      exact .inl ⟨k, rfl, by assumption, h.symm⟩
    · cases h
  | present k ws =>
    obtain ⟨e, he, ht⟩ := State.onEngineAt_next h
    exact .inr (.inl ⟨k, ws, e, rfl, he, ht⟩)
  | bindSrc k bytes =>
    simp only [State.accept] at h
    split at h
    · obtain ⟨e, he, ht⟩ := State.onEngineAt_next h
      exact .inr (.inr (.inl ⟨k, bytes, e, rfl, by assumption, he, ht⟩))
    · cases h
  | writeSrc k index b =>
    obtain ⟨e, he, ht⟩ := State.onEngineAt_next h
    exact .inr (.inr (.inr (.inl ⟨k, index, b, e, rfl, he, ht⟩)))
  | writeSrcDuring k index b =>
    obtain ⟨e, he, ht⟩ := State.onEngineAt_next h
    exact .inr (.inr (.inr (.inr (.inl ⟨k, index, b, e, rfl, he, ht⟩))))
  | takeResponse k =>
    obtain ⟨e, he, ht⟩ := State.onEngineAt_next h
    exact .inr (.inr (.inr (.inr (.inr (.inl ⟨k, e, rfl, he, ht⟩)))))
  | assertReset =>
    injection h with h
    exact .inr (.inr (.inr (.inr (.inr (.inr (.inl ⟨rfl, h.symm⟩))))))
  | releaseReset =>
    injection h with h
    exact .inr (.inr (.inr (.inr (.inr (.inr (.inr ⟨rfl, h.symm⟩))))))

end Sys2Proof.Machine
end

