-- ==== Sys2Proof/Tests/Slice0.lean ====
section
/-! SUPPORT. Tests of the model, with values from spec/95_test_vectors.md and the examples of the rules, and one witness for
the hypotheses of each statement that has any. -/

namespace Sys2Proof.Tests

open Sys2Proof.Machine

/-! ### Small states -/

/-- The source buffer of the spec's examples, "123456789". -/
def digitsBuffer : Src := Src.bind [0x31#8, 0x32#8, 0x33#8, 0x34#8, 0x35#8, 0x36#8, 0x37#8, 0x38#8, 0x39#8]

/-- An engine after reset with that buffer. -/
def digitsEngine : Engine := { Engine.reset with src := digitsBuffer }

/-- A realisation with one engine, after reset. -/
def machine (cfg : Config) (e : Engine) : State := { State.resetOf cfg with engines := [e] }

/-- The default parameters with the other range policy. -/
def faultingConfig : Config := { Config.default with rangePolicy := .foldUntilFault }

/-- The default parameters without TREAD. -/
def noTreadConfig : Config := { Config.default with hasTread := false }

/-- The machine of most tests. -/
def digitsMachine : State := machine Config.default digitsEngine

/-- Two engines with the same buffer. -/
def twoEngines : State := { State.resetOf { Config.default with numEngines := 2 } with engines := [digitsEngine, digitsEngine] }

/-- A machine whose engine has words at its port. -/
def withPort (cfg : Config) (ws : List Word) : State := machine cfg { digitsEngine with port := ws }

/-- CRC, STATUS and the responses of engine 0 after a next state. -/
def seen (o : Host.Outcome State Fault Refusal) : Option (U64 × Word × List Response) :=
  match o with
  | .next t => t.engines[0]?.map fun e => (e.crc, e.status, e.rsp)
  | .fault _ => none
  | .refused _ => none

/-! ### Well-formedness: the check refuses each ill-formed term -/

theorem test_wf_refuses_offset_below : (Instr.updr (-2147483649) 0).wf 32 = false := by decide
theorem test_wf_refuses_offset_above : (Instr.updr 2147483648 0).wf 32 = false := by decide
theorem test_wf_refuses_length_below : (Instr.updr 0 (-2147483649)).wf 32 = false := by decide
theorem test_wf_refuses_length_above : (Instr.updr 0 2147483648).wf 32 = false := by decide
theorem test_wf_takes_the_bounds : (Instr.updr (-2147483648) 2147483647).wf 32 = true := by decide
theorem test_wf_refuses_beyond_a_narrow_operand : (Instr.updr 128 0).wf 8 = false := by decide
theorem test_wf_takes_the_bounds_of_a_narrow_operand : (Instr.updr (-128) 127).wf 8 = true := by decide
theorem test_host_masks_a_signed_byte : Instr.updByte (-1) = .updb 0xFF#8 := by decide

/-! ### Decoding: words written out bit by bit from R64's patterns -/

theorem test_decode_init :
    decode Config.default [0b00000000000000000000000000000001#32] = .command .init [] := by decide
theorem test_decode_updb :
    decode Config.default [0b00000000000000000011000100000010#32] = .command (.updb 0b00110001#8) [] := by decide
theorem test_decode_updr :
    decode Config.default [0b00000000000000000000000000000011#32, 0b11111111111111111111111111111111#32,
      0b00000000000000000000000000000001#32] = .command (.updr (-1) 1) [] := by decide
theorem test_decode_value :
    decode Config.default [0b00000000000000000000000000000100#32] = .command .value [] := by decide
theorem test_decode_tread :
    decode Config.default [0b00000000000000001000000000000101#32] = .command (.tread 0b10000000#8) [] := by decide

/-- The illegal words of spec/95_test_vectors.md, section 3.4, each refused by name. -/
theorem test_decode_illegal_words :
    [0x00000000#32, 0x00000006#32, 0x0000000F#32, 0x00000011#32, 0x00000101#32, 0x00010001#32, 0x80000004#32,
      0x00000104#32, 0x000000F2#32].map (fun w => decode Config.default [w]) =
    [.illegal .opcodeZero [], .illegal .reservedOpcode [], .illegal .reservedOpcode [], .illegal .reservedField [],
      .illegal .immediate [], .illegal .reservedField [], .illegal .reservedField [], .illegal .immediate [],
      .illegal .reservedField []] := by decide

/-- An illegal word of OP 0x3 consumes its operand words (section 3.4). -/
theorem test_decode_illegal_updr_is_three_words :
    decode Config.default [0x00000103#32, 0xFFFFFFFF#32, 0x00000001#32, 0x00000004#32] = .illegal .immediate [0x00000004#32] := by
  decide

/-- With IDX_W 8 the low byte of an operand word counts, as two's complement (log 4). -/
theorem test_decode_narrow_operands :
    decode { Config.default with idxW := 8 } [0x00000003#32, 0x00000180#32, 0x0000007F#32] =
      .command (.updr (-128) 127) [] := by decide

theorem test_table_word_updb : decodeTableWord 32 0x00003102 = some (.updb 0x31#8) := by decide
theorem test_table_word_updr : decodeTableWord 96 0xFFFFFFFF0000000900000003 = some (.updr 9 (-1)) := by decide

/-! ### The table -/

/-- The table of spec/95_test_vectors.md, section 2.2, in index order. -/
def specTable : List U64 :=
  [0x0000000000000000#64, 0xB32E4CBE03A75F6F#64, 0xF4843657A840A05B#64, 0x47AA7AE9ABE7FF34#64,
   0x7BD0C384FF8F5E33#64, 0xC8FE8F3AFC28015C#64, 0x8F54F5D357CFFE68#64, 0x3C7AB96D5468A107#64,
   0xF7A18709FF1EBC66#64, 0x448FCBB7FCB9E309#64, 0x0325B15E575E1C3D#64, 0xB00BFDE054F94352#64,
   0x8C71448D0091E255#64, 0x3F5F08330336BD3A#64, 0x78F572DAA8D1420E#64, 0xCBDB3E64AB761D61#64,
   0x7D9BA13851336649#64, 0xCEB5ED8652943926#64, 0x891F976FF973C612#64, 0x3A31DBD1FAD4997D#64,
   0x064B62BCAEBC387A#64, 0xB5652E02AD1B6715#64, 0xF2CF54EB06FC9821#64, 0x41E11855055BC74E#64,
   0x8A3A2631AE2DDA2F#64, 0x39146A8FAD8A8540#64, 0x7EBE1066066D7A74#64, 0xCD905CD805CA251B#64,
   0xF1EAE5B551A2841C#64, 0x42C4A90B5205DB73#64, 0x056ED3E2F9E22447#64, 0xB6409F5CFA457B28#64] ++
  [0xFB374270A266CC92#64, 0x48190ECEA1C193FD#64, 0x0FB374270A266CC9#64, 0xBC9D3899098133A6#64,
   0x80E781F45DE992A1#64, 0x33C9CD4A5E4ECDCE#64, 0x7463B7A3F5A932FA#64, 0xC74DFB1DF60E6D95#64,
   0x0C96C5795D7870F4#64, 0xBFB889C75EDF2F9B#64, 0xF812F32EF538D0AF#64, 0x4B3CBF90F69F8FC0#64,
   0x774606FDA2F72EC7#64, 0xC4684A43A15071A8#64, 0x83C230AA0AB78E9C#64, 0x30EC7C140910D1F3#64,
   0x86ACE348F355AADB#64, 0x3582AFF6F0F2F5B4#64, 0x7228D51F5B150A80#64, 0xC10699A158B255EF#64,
   0xFD7C20CC0CDAF4E8#64, 0x4E526C720F7DAB87#64, 0x09F8169BA49A54B3#64, 0xBAD65A25A73D0BDC#64,
   0x710D64410C4B16BD#64, 0xC22328FF0FEC49D2#64, 0x85895216A40BB6E6#64, 0x36A71EA8A7ACE989#64,
   0x0ADDA7C5F3C4488E#64, 0xB9F3EB7BF06317E1#64, 0xFE5991925B84E8D5#64, 0x4D77DD2C5823B7BA#64] ++
  [0x64B62BCAEBC387A1#64, 0xD7986774E864D8CE#64, 0x90321D9D438327FA#64, 0x231C512340247895#64,
   0x1F66E84E144CD992#64, 0xAC48A4F017EB86FD#64, 0xEBE2DE19BC0C79C9#64, 0x58CC92A7BFAB26A6#64,
   0x9317ACC314DD3BC7#64, 0x2039E07D177A64A8#64, 0x67939A94BC9D9B9C#64, 0xD4BDD62ABF3AC4F3#64,
   0xE8C76F47EB5265F4#64, 0x5BE923F9E8F53A9B#64, 0x1C4359104312C5AF#64, 0xAF6D15AE40B59AC0#64,
   0x192D8AF2BAF0E1E8#64, 0xAA03C64CB957BE87#64, 0xEDA9BCA512B041B3#64, 0x5E87F01B11171EDC#64,
   0x62FD4976457FBFDB#64, 0xD1D305C846D8E0B4#64, 0x96797F21ED3F1F80#64, 0x2557339FEE9840EF#64,
   0xEE8C0DFB45EE5D8E#64, 0x5DA24145464902E1#64, 0x1A083BACEDAEFDD5#64, 0xA9267712EE09A2BA#64,
   0x955CCE7FBA6103BD#64, 0x267282C1B9C65CD2#64, 0x61D8F8281221A3E6#64, 0xD2F6B4961186FC89#64] ++
  [0x9F8169BA49A54B33#64, 0x2CAF25044A02145C#64, 0x6B055FEDE1E5EB68#64, 0xD82B1353E242B407#64,
   0xE451AA3EB62A1500#64, 0x577FE680B58D4A6F#64, 0x10D59C691E6AB55B#64, 0xA3FBD0D71DCDEA34#64,
   0x6820EEB3B6BBF755#64, 0xDB0EA20DB51CA83A#64, 0x9CA4D8E41EFB570E#64, 0x2F8A945A1D5C0861#64,
   0x13F02D374934A966#64, 0xA0DE61894A93F609#64, 0xE7741B60E174093D#64, 0x545A57DEE2D35652#64,
   0xE21AC88218962D7A#64, 0x5134843C1B317215#64, 0x169EFED5B0D68D21#64, 0xA5B0B26BB371D24E#64,
   0x99CA0B06E7197349#64, 0x2AE447B8E4BE2C26#64, 0x6D4E3D514F59D312#64, 0xDE6071EF4CFE8C7D#64,
   0x15BB4F8BE788911C#64, 0xA6950335E42FCE73#64, 0xE13F79DC4FC83147#64, 0x521135624C6F6E28#64,
   0x6E6B8C0F1807CF2F#64, 0xDD45C0B11BA09040#64, 0x9AEFBA58B0476F74#64, 0x29C1F6E6B3E0301B#64] ++
  [0xC96C5795D7870F42#64, 0x7A421B2BD420502D#64, 0x3DE861C27FC7AF19#64, 0x8EC62D7C7C60F076#64,
   0xB2BC941128085171#64, 0x0192D8AF2BAF0E1E#64, 0x4638A2468048F12A#64, 0xF516EEF883EFAE45#64,
   0x3ECDD09C2899B324#64, 0x8DE39C222B3EEC4B#64, 0xCA49E6CB80D9137F#64, 0x7967AA75837E4C10#64,
   0x451D1318D716ED17#64, 0xF6335FA6D4B1B278#64, 0xB199254F7F564D4C#64, 0x02B769F17CF11223#64,
   0xB4F7F6AD86B4690B#64, 0x07D9BA1385133664#64, 0x4073C0FA2EF4C950#64, 0xF35D8C442D53963F#64,
   0xCF273529793B3738#64, 0x7C0979977A9C6857#64, 0x3BA3037ED17B9763#64, 0x888D4FC0D2DCC80C#64,
   0x435671A479AAD56D#64, 0xF0783D1A7A0D8A02#64, 0xB7D247F3D1EA7536#64, 0x04FC0B4DD24D2A59#64,
   0x3886B22086258B5E#64, 0x8BA8FE9E8582D431#64, 0xCC0284772E652B05#64, 0x7F2CC8C92DC2746A#64] ++
  [0x325B15E575E1C3D0#64, 0x8175595B76469CBF#64, 0xC6DF23B2DDA1638B#64, 0x75F16F0CDE063CE4#64,
   0x498BD6618A6E9DE3#64, 0xFAA59ADF89C9C28C#64, 0xBD0FE036222E3DB8#64, 0x0E21AC88218962D7#64,
   0xC5FA92EC8AFF7FB6#64, 0x76D4DE52895820D9#64, 0x317EA4BB22BFDFED#64, 0x8250E80521188082#64,
   0xBE2A516875702185#64, 0x0D041DD676D77EEA#64, 0x4AAE673FDD3081DE#64, 0xF9802B81DE97DEB1#64,
   0x4FC0B4DD24D2A599#64, 0xFCEEF8632775FAF6#64, 0xBB44828A8C9205C2#64, 0x086ACE348F355AAD#64,
   0x34107759DB5DFBAA#64, 0x873E3BE7D8FAA4C5#64, 0xC094410E731D5BF1#64, 0x73BA0DB070BA049E#64,
   0xB86133D4DBCC19FF#64, 0x0B4F7F6AD86B4690#64, 0x4CE50583738CB9A4#64, 0xFFCB493D702BE6CB#64,
   0xC3B1F050244347CC#64, 0x709FBCEE27E418A3#64, 0x3735C6078C03E797#64, 0x841B8AB98FA4B8F8#64] ++
  [0xADDA7C5F3C4488E3#64, 0x1EF430E13FE3D78C#64, 0x595E4A08940428B8#64, 0xEA7006B697A377D7#64,
   0xD60ABFDBC3CBD6D0#64, 0x6524F365C06C89BF#64, 0x228E898C6B8B768B#64, 0x91A0C532682C29E4#64,
   0x5A7BFB56C35A3485#64, 0xE955B7E8C0FD6BEA#64, 0xAEFFCD016B1A94DE#64, 0x1DD181BF68BDCBB1#64,
   0x21AB38D23CD56AB6#64, 0x9285746C3F7235D9#64, 0xD52F0E859495CAED#64, 0x6601423B97329582#64,
   0xD041DD676D77EEAA#64, 0x636F91D96ED0B1C5#64, 0x24C5EB30C5374EF1#64, 0x97EBA78EC690119E#64,
   0xAB911EE392F8B099#64, 0x18BF525D915FEFF6#64, 0x5F1528B43AB810C2#64, 0xEC3B640A391F4FAD#64,
   0x27E05A6E926952CC#64, 0x94CE16D091CE0DA3#64, 0xD3646C393A29F297#64, 0x604A2087398EADF8#64,
   0x5C3099EA6DE60CFF#64, 0xEF1ED5546E415390#64, 0xA8B4AFBDC5A6ACA4#64, 0x1B9AE303C601F3CB#64] ++
  [0x56ED3E2F9E224471#64, 0xE5C372919D851B1E#64, 0xA26908783662E42A#64, 0x114744C635C5BB45#64,
   0x2D3DFDAB61AD1A42#64, 0x9E13B115620A452D#64, 0xD9B9CBFCC9EDBA19#64, 0x6A978742CA4AE576#64,
   0xA14CB926613CF817#64, 0x1262F598629BA778#64, 0x55C88F71C97C584C#64, 0xE6E6C3CFCADB0723#64,
   0xDA9C7AA29EB3A624#64, 0x69B2361C9D14F94B#64, 0x2E184CF536F3067F#64, 0x9D36004B35545910#64,
   0x2B769F17CF112238#64, 0x9858D3A9CCB67D57#64, 0xDFF2A94067518263#64, 0x6CDCE5FE64F6DD0C#64,
   0x50A65C93309E7C0B#64, 0xE388102D33392364#64, 0xA4226AC498DEDC50#64, 0x170C267A9B79833F#64,
   0xDCD7181E300F9E5E#64, 0x6FF954A033A8C131#64, 0x28532E49984F3E05#64, 0x9B7D62F79BE8616A#64,
   0xA707DB9ACF80C06D#64, 0x14299724CC279F02#64, 0x5383EDCD67C06036#64, 0xE0ADA17364673F59#64]

theorem test_generated_table :
    ((List.range 256).map fun i => gen 0xC96C5795D7870F42#64 (BitVec.ofNat 8 i)) = specTable := by decide +kernel

/-- The trace for b = 0x03 (section 2.1): the working register after 5 iterations. -/
theorem test_generator_trace : genRun 0xC96C5795D7870F42#64 5 0x03#64 = 0x8A3A2631AE2DDA2F#64 := by decide

/-! ### Commands -/

/-- INIT leaves STATUS as it was (section 3.2). -/
theorem test_init_presets_and_keeps_status :
    seen (exec .init (machine Config.default { digitsEngine with crc := 0x1#64, status := 0x3#32 })) =
      some (0xFFFFFFFFFFFFFFFF#64, 0x3#32, [⟨.ok, 0#64⟩]) := by decide

/-- P1's first line. -/
theorem test_updb_folds_the_digit_one :
    seen (exec (.updb 0x31#8) digitsMachine) = some (0xD5D0F17A6B6A3512#64, 0#32, [⟨.ok, 0#64⟩]) := by decide +kernel

/-- Section 3.1: the shift fills with zeros, and the index is the XOR of the byte and the low byte. -/
theorem test_fold_vectors :
    [(0x0000000000000000#64, 0x01#8), (0x0000000000000001#64, 0x00#8), (0xFFFFFFFFFFFFFFFF#64, 0xFF#8),
      (0x0123456789ABCDEF#64, 0xEF#8), (0x0123456789ABCDEF#64, 0x00#8), (0x8000000000000000#64, 0x00#8)].map
        (fun v => fold (genTable Config.default.poly) v.1 v.2) =
    [0xB32E4CBE03A75F6F#64, 0xB32E4CBE03A75F6F#64, 0x00FFFFFFFFFFFFFF#64, 0x000123456789ABCD#64, 0x9D37230E52DDF2DD#64,
      0x0080000000000000#64] := by decide +kernel

/-- Operands and outcomes of section 3.3: offset, length, register and code. -/
abbrev RangeRow := Int × Int × U64 × RCode

/-- One row of section 3.3 holds under a policy. -/
def rangeRowHolds (cfg : Config) (row : RangeRow) : Bool :=
  seen (exec (.updr row.1 row.2.1) (machine cfg digitsEngine)) ==
    some (row.2.2.1, if row.2.2.2 = .ok then 0#32 else 1#32, [⟨row.2.2.2, 0#64⟩])

theorem test_updr_check_first_rows :
    ([(0, 0, preset, .ok), (9, 0, preset, .ok), (9, 1, preset, .range), (10, 0, preset, .range),
      (0, 9, 0x66A2364420E6C605#64, .ok), (0, 10, preset, .range), (8, 1, 0x2271767394748974#64, .ok),
      (2, 3, 0x56305ABBE81427CB#64, .ok), (7, 5, preset, .range), (-1, 1, preset, .range), (-1, 0, preset, .range),
      (0, -1, preset, .range), (3, -1, preset, .range), (2147483647, 1, preset, .range),
      (2147483647, 2147483647, preset, .range), (-2147483648, 2147483647, preset, .range)] : List RangeRow).all
        (rangeRowHolds Config.default) = true := by decide +kernel

theorem test_updr_fold_until_fault_rows :
    ([(0, 0, preset, .ok), (9, 0, preset, .ok), (9, 1, preset, .range), (10, 0, preset, .ok),
      (0, 9, 0x66A2364420E6C605#64, .ok), (0, 10, 0x66A2364420E6C605#64, .range), (8, 1, 0x2271767394748974#64, .ok),
      (2, 3, 0x56305ABBE81427CB#64, .ok), (7, 5, 0x0F222B1DC7B1BF1F#64, .range), (-1, 1, preset, .range),
      (-1, 0, preset, .ok), (0, -1, preset, .ok), (3, -1, preset, .ok), (2147483647, 1, preset, .range),
      (2147483647, 2147483647, preset, .range), (-2147483648, 2147483647, preset, .range)] : List RangeRow).all
        (rangeRowHolds faultingConfig) = true := by decide +kernel

/-- The last line of P1: VALUE gives the check value and leaves the register. -/
theorem test_value_gives_the_check_value :
    seen (exec .value (machine Config.default { digitsEngine with crc := 0x66A2364420E6C605#64 })) =
      some (0x66A2364420E6C605#64, 0#32, [⟨.ok, 0x995DC9BBDF1939FA#64⟩]) := by decide

/-- Section 2.3. -/
theorem test_tread_gives_the_entry :
    seen (exec (.tread 0x01#8) digitsMachine) = some (preset, 0#32, [⟨.ok, 0xB32E4CBE03A75F6F#64⟩]) := by decide +kernel

theorem test_tread_is_illegal_without_tread :
    seen (step (withPort noTreadConfig [0x00000105#32])) = some (preset, 2#32, [⟨.illegal, 0#64⟩]) := by decide

/-! ### The step -/

/-- P3's second line: STATUS keeps the earlier error bit. -/
theorem test_step_illegal_word :
    seen (step (machine Config.default { digitsEngine with status := 1#32, port := [0x00000000#32] })) =
      some (preset, 3#32, [⟨.illegal, 0#64⟩]) := by decide

/-- Priority (section 3.4): the invalid range of an illegal word is not looked at. -/
theorem test_step_illegal_before_range :
    seen (step (withPort Config.default [0x00000103#32, 0xFFFFFFFF#32, 0x00000001#32])) =
      some (preset, 2#32, [⟨.illegal, 0#64⟩]) := by decide

/-- The instruction of a table row is the first to run after reset. -/
theorem test_step_runs_the_fetched_word :
    seen (step (State.reset.withFetchWord 32 0x00003102)) = some (0xD5D0F17A6B6A3512#64, 0#32, [⟨.ok, 0#64⟩]) := by
  decide +kernel

/-- A byte the host writes during the UPDR that reads it is the free value, and the buffer holds the host's byte
afterwards. -/
theorem test_raced_byte :
    srcRead 7 { digitsBuffer with racing := [(2, 0xAA#8)] } 2 = Config.freeByte 7 2 ∧
      Memory.read ({ digitsBuffer with racing := [(2, 0xAA#8)] } : Src).settle.mem 2 = 0xAA#8 := ⟨rfl, by decide⟩

/-! ### The assembler -/

/-- P2's first lines, and an operand that is out of range. -/
theorem test_assemble_program :
    assemble 0 ".src \"123456789\" ; src_len = 9\nINIT\nUPDR 0, 4\nUPDALL\nVALUE".toList =
      some ([.bindSrc 0 [0x31#8, 0x32#8, 0x33#8, 0x34#8, 0x35#8, 0x36#8, 0x37#8, 0x38#8, 0x39#8]] ++
        issue 0 [0x00000001#32] ++ issue 0 [0x00000003#32, 0x00000000#32, 0x00000004#32] ++
        issue 0 [0x00000003#32, 0x00000000#32, 0x00000009#32] ++ issue 0 [0x00000004#32]) := by decide +kernel

theorem test_assemble_operands :
    readLine "UPDB ';' ; a character".toList = some (.command (.updb 0x3B#8)) ∧
      readLine "UPDR -1, 0x80000000".toList = some (.command (.updr (-1) (-2147483648))) ∧
      readLine ".src [1, 0x02, 'a']".toList = some (.src [0x01#8, 0x02#8, 0x61#8]) ∧
      readLine "TREAD 256".toList = none := by decide +kernel

/-! ### Witnesses: for each statement with hypotheses, a state and operands that meet all of them -/

theorem witness_OpcodeMapDecodes :
    0x00000001#32 &&& 0xFFFFFFFF#32 = 0x00000001#32 ∧ 0x0000FF02#32 &&& 0xFFFF00FF#32 = 0x00000002#32 ∧
      0x00000003#32 &&& 0xFFFFFFFF#32 = 0x00000003#32 ∧ 0x00000004#32 &&& 0xFFFFFFFF#32 = 0x00000004#32 ∧
      0x0000FF05#32 &&& 0xFFFF00FF#32 = 0x00000005#32 ∧ Config.default.hasTread = true ∧ (0x00000000#32).extractLsb' 0 4 = 0x0#4 ∧
      0x6#4 ≤ (0x00000006#32).extractLsb' 0 4 ∧ 0x6#4 ≤ (0x0000000F#32).extractLsb' 0 4 := by decide

/-- A legal and an illegal word of each length. -/
theorem witness_DecodeFollowsLegality :
    ([] : List Word).length + 1 = commandLength 0x00000001#32 ∧ legal true 0x00000001#32 = true ∧
      [0#32, 0#32].length + 1 = commandLength 0x00000003#32 ∧ legal true 0x00000003#32 = true ∧
      [0#32, 0#32].length + 1 = commandLength 0x00000103#32 ∧ legal true 0x00000103#32 = false ∧
      ([] : List Word).length + 1 = commandLength 0x00000005#32 ∧ legal false 0x00000005#32 = false := by decide

theorem witness_LengthIsDecidedByOp :
    decode Config.default (0x00000003#32 :: [0#32]) = .incomplete ∧
      decode Config.default (0x00000003#32 :: [0#32, 0#32]) = .command (.updr 0 0) [] ∧
      decode Config.default (0x00000104#32 :: []) = .illegal .immediate [] := by decide

theorem witness_OperandWordsAreS32 :
    (-(2 ^ 31) ≤ (-2147483648 : Int) ∧ (-2147483648 : Int) < 2 ^ 31) ∧
      (-(2 ^ 31) ≤ (2147483647 : Int) ∧ (2147483647 : Int) < 2 ^ 31) ∧ Config.default.idxW = 32 := by decide

theorem witness_OperandsOfOtherWidths :
    ((8 : PNat) : Nat) ≤ 32 ∧ ((32 : PNat) : Nat) ≤ 32 ∧ 32 ≤ ((32 : PNat) : Nat) ∧ 32 ≤ ((64 : PNat) : Nat) := by decide

theorem witness_DecodeOfEncode :
    (Instr.updr (-2147483648) 2147483647).wf Config.default.idxW = true ∧
      (∀ x, Instr.updr (-2147483648) 2147483647 = .tread x → Config.default.hasTread = true) ∧
      (Instr.tread 0xFF#8).wf Config.default.idxW = true ∧
      (∀ x, Instr.tread 0xFF#8 = .tread x → Config.default.hasTread = true) :=
  ⟨by decide, nofun, by decide, fun _ _ => rfl⟩

theorem witness_EncodeOfDecode :
    decode Config.default [0x00000003#32, 0x80000000#32, 0x7FFFFFFF#32, 0x00000004#32] =
      .command (.updr (-2147483648) 2147483647) [0x00000004#32] ∧ 32 ≤ (Config.default.idxW : Nat) ∧
      (∀ off len, Instr.init ≠ .updr off len) := ⟨by decide, by decide, nofun⟩

theorem witness_TableHoldsPolyAndZero :
    digitsMachine.engines[digitsMachine.cur]? = some digitsEngine ∧ digitsMachine.tbl = genTable digitsMachine.cfg.poly ∧
      digitsMachine.cfg.hasTread = true := ⟨rfl, rfl, rfl⟩

/-- Two tables that are linear and agree at the powers of two. -/
theorem witness_TableIsLinear :
    (∀ a b : Byte, Table.entry (Vector.replicate 256 0#64) (a ^^^ b) =
      Table.entry (Vector.replicate 256 0#64) a ^^^ Table.entry (Vector.replicate 256 0#64) b) ∧
    (∀ k < 8, Table.entry (Vector.replicate 256 0#64) (1#8 <<< k) =
      Table.entry (Vector.replicate 256 0#64) (1#8 <<< k)) := by simp [Table.entry]

theorem witness_GeneratorIteration : 63 < 64 := by decide

/-- A command, a step with reset complete, and an input while the generator is at work. -/
theorem witness_TableIsNeverWrittenAfterReset :
    let s := withPort Config.default [0x00000001#32]
    let s' := { s with phase := .generating (GenState.start 255), agenda := [Input.takeResponse 0] }
    (∃ t, exec .init s = .next t) ∧ (∃ t, step s = .next t) ∧ (∀ g, s.phase ≠ .generating g) ∧
      (∃ t, step s' = .next t) ∧ s'.agenda = Input.takeResponse 0 :: [] ∧ ∀ k, Input.takeResponse 0 ≠ .serve k :=
  ⟨⟨_, rfl⟩, ⟨_, rfl⟩, nofun, ⟨_, rfl⟩, rfl, nofun⟩

theorem witness_ParametersAreNeverWritten :
    (∃ t, exec .init digitsMachine = .next t) ∧ ∃ t, step digitsMachine = .next t := ⟨⟨_, rfl⟩, ⟨_, rfl⟩⟩

/-- The machine of the tests awaits the words at its engine's port. -/
theorem withPort_awaits (cfg : Config) (ws : List Word) :
    (withPort cfg ws).awaits (withPort cfg ws) { digitsEngine with port := ws } ws := ⟨.inl ⟨rfl, rfl⟩, rfl, rfl, rfl⟩

/-- And so it does where the agenda names its engine, before other inputs. -/
theorem withPort_awaits_named (cfg : Config) (ws : List Word) (more : List Input) :
    ({ withPort cfg ws with agenda := .serve 0 :: more } : State).awaits { withPort cfg ws with agenda := more }
      { digitsEngine with port := ws } ws := ⟨.inr ⟨0, more, rfl, Nat.one_pos, rfl⟩, rfl, rfl, rfl⟩

theorem witness_InitPresetsTheRegister :
    digitsMachine.engines[digitsMachine.cur]? = some digitsEngine ∧
      (∀ cw, ∃ s u e, State.awaits s u e [cw]) ∧ (0x00000001#32).extractLsb' 0 4 = 0x1#4 ∧
      (0x00000101#32).extractLsb' 0 4 = 0x1#4 ∧ 0x00000101#32 ≠ 0x00000001#32 :=
  ⟨rfl, fun cw => ⟨_, _, _, withPort_awaits_named Config.default [cw] []⟩, by decide⟩

theorem witness_UpdbFoldsItsByte :
    digitsMachine.engines[digitsMachine.cur]? = some digitsEngine ∧
      (∀ cw, ∃ s u e, State.awaits s u e [cw]) ∧ (0x0000FF02#32).extractLsb' 0 4 = 0x2#4 ∧
      ((0x0000FF02#32).extractLsb' 16 16 = 0#16 ∧ (0x0000FF02#32).extractLsb' 4 4 = 0#4) ∧
      (0x00010002#32).extractLsb' 0 4 = 0x2#4 ∧
      ¬ ((0x00010002#32).extractLsb' 16 16 = 0#16 ∧ (0x00010002#32).extractLsb' 4 4 = 0#4) :=
  ⟨rfl, fun cw => ⟨_, _, _, withPort_awaits_named Config.default [cw] []⟩, by decide⟩

/-- A range that ends at the end of the buffer, and one that passes it by one. -/
theorem witness_UpdrUnderCheckFirst :
    digitsMachine.cfg.rangePolicy = .checkFirst ∧ digitsMachine.engines[digitsMachine.cur]? = some digitsEngine ∧
      ((0 : Int) ≤ 9 ∧ (0 : Int) ≤ 0 ∧ (9 : Int) + 0 ≤ digitsEngine.src.len) ∧
      ¬ ((0 : Int) ≤ 9 ∧ (0 : Int) ≤ 1 ∧ (9 : Int) + 1 ≤ digitsEngine.src.len) ∧
      (∀ cw, ∃ s u e, State.awaits s u e [cw, 0#32, 0#32] ∧ s.cfg.idxW = 32) ∧
      (0x00000003#32).extractLsb' 0 4 = 0x3#4 ∧ (0x00000103#32).extractLsb' 0 4 = 0x3#4 ∧
      0x00000103#32 ≠ 0x00000003#32 :=
  ⟨rfl, rfl, by decide, by decide, fun cw => ⟨_, _, _, withPort_awaits Config.default [cw, 0#32, 0#32], rfl⟩, by decide⟩

/-- A range all inside, and one whose first index is the first outside. -/
theorem witness_UpdrUnderFoldUntilFault :
    (machine faultingConfig digitsEngine).cfg.rangePolicy = .foldUntilFault ∧
      (machine faultingConfig digitsEngine).engines[(machine faultingConfig digitsEngine).cur]? = some digitsEngine ∧
      (∀ i : Int, 0 ≤ i → i < 0 + 9 → 0 ≤ i ∧ i < digitsEngine.src.len) ∧
      (∃ i : Int, 9 ≤ i ∧ i < 9 + 1 ∧ ¬ (0 ≤ i ∧ i < digitsEngine.src.len)) ∧
      (∀ cw, ∃ s u e, State.awaits s u e [cw, 0#32, 0#32] ∧ s.cfg.idxW = 32) ∧
      (0x00000003#32).extractLsb' 0 4 = 0x3#4 ∧ (0x00000013#32).extractLsb' 0 4 = 0x3#4 ∧
      0x00000013#32 ≠ 0x00000003#32 := by
  have hl : digitsEngine.src.len = 9 := rfl
  exact ⟨rfl, rfl, fun i h1 h2 => ⟨h1, by omega⟩, ⟨9, by omega, by omega, by omega⟩,
    fun cw => ⟨_, _, _, withPort_awaits faultingConfig [cw, 0#32, 0#32], rfl⟩, by decide⟩

theorem witness_ValueAnswersTheComplement :
    digitsMachine.engines[digitsMachine.cur]? = some digitsEngine ∧
      (∀ cw, ∃ s u e, State.awaits s u e [cw]) ∧ (0x00000004#32).extractLsb' 0 4 = 0x4#4 ∧
      (0x80000004#32).extractLsb' 0 4 = 0x4#4 ∧ 0x80000004#32 ≠ 0x00000004#32 :=
  ⟨rfl, fun cw => ⟨_, _, _, withPort_awaits_named Config.default [cw] []⟩, by decide⟩

theorem witness_TreadAnswersTheEntry :
    digitsMachine.cfg.hasTread = true ∧ digitsMachine.engines[digitsMachine.cur]? = some digitsEngine ∧
      (machine noTreadConfig digitsEngine).cfg.hasTread = false ∧
      (machine noTreadConfig digitsEngine).engines[(machine noTreadConfig digitsEngine).cur]? = some digitsEngine ∧
      (∀ cfg cw, ∃ s u e, s.cfg = cfg ∧ State.awaits s u e [cw]) ∧
      (0x0000FF05#32).extractLsb' 0 4 = 0x5#4 ∧ (0x0000FF05#32).extractLsb' 16 16 = 0#16 ∧
      (0x0000FF05#32).extractLsb' 4 4 = 0#4 ∧ (0x00010105#32).extractLsb' 0 4 = 0x5#4 ∧
      (0x00010105#32).extractLsb' 16 16 ≠ 0#16 :=
  ⟨rfl, rfl, rfl, rfl, fun cfg cw => ⟨_, _, _, rfl, withPort_awaits cfg [cw]⟩, by decide⟩

theorem witness_FrameOfRegisterCommands :
    (∀ off len, Instr.value ≠ .updr off len) ∧ (∃ t, exec .value digitsMachine = .next t) ∧
      digitsMachine.engines[digitsMachine.cur]? = some digitsEngine :=
  ⟨nofun, ⟨_, rfl⟩, rfl⟩

/-- One index that the host writes meanwhile, and one that it does not. -/
theorem witness_FrameOfUpdr :
    let e := { digitsEngine with src := { digitsBuffer with racing := [(8, 0xAA#8)] } }
    (∃ t, exec (.updr 0 9) (machine Config.default e) = .next t) ∧
      (machine Config.default e).engines[(machine Config.default e).cur]? = some e ∧ Memory.wf e.src.mem ∧
      (∀ b, (0, b) ∉ e.src.racing) :=
  ⟨⟨_, rfl⟩, rfl, Memory.ofBytes_wf 0 _, by simp⟩

theorem witness_PoliciesAgreeOnValidRanges : (0 : Int) ≤ 9 ∧ (0 : Int) ≤ 0 ∧ (9 : Int) + 0 ≤ (9 : Nat) := by decide

theorem witness_UpdrReadsOnlyTheBuffer : ∀ i < 9, Memory.read digitsBuffer.mem i = Memory.read digitsBuffer.mem i :=
  fun _ _ => rfl

/-- The last index of the buffer, written by the host meanwhile, and one that is not. -/
theorem witness_RacedBytesAreFree :
    let src := { digitsBuffer with racing := [(8, 0xAA#8)] }
    Memory.wf src.mem ∧ 8 < src.len ∧ (∃ b, (8, b) ∈ src.racing) ∧ 7 < src.len ∧ (∀ b, (7, b) ∉ src.racing) :=
  ⟨Memory.ofBytes_wf 0 _, by decide, ⟨0xAA#8, by simp⟩, by decide, by simp⟩

theorem witness_UpdrEqualsItsUpdbs :
    ∃ t e', digitsMachine.engines[digitsMachine.cur]? = some digitsEngine ∧
      exec (.updr 0 9) digitsMachine = .next t ∧ t.engines[digitsMachine.cur]? = some e' ∧
      e'.rsp = digitsEngine.rsp ++ [⟨.ok, 0#64⟩] := ⟨_, _, rfl, rfl, rfl, rfl⟩

/-- One UPDR of "12", and an UPDB of each of the two, under both policies; and the commands that read nothing. -/
theorem witness_ChunkBoundariesDoNotMatter :
    digitsMachine.engines[digitsMachine.cur]? = some digitsEngine ∧ digitsEngine.src.racing = [] ∧
      updatesBytes .checkFirst digitsEngine.src [.updr 0 2] = some [0x31#8, 0x32#8] ∧
      updatesBytes .checkFirst digitsEngine.src [.updb 0x31#8, .updb 0x32#8] = some [0x31#8, 0x32#8] ∧
      updatesBytes .foldUntilFault digitsEngine.src [.updr 10 0, .updr 0 2, .updr 0 (-1)] = some [0x31#8, 0x32#8] ∧
      updatesBytes .foldUntilFault digitsEngine.src [.updb 0x31#8, .updb 0x32#8] = some [0x31#8, 0x32#8] := by decide

theorem witness_ValueIsTransparent : digitsMachine.engines[digitsMachine.cur]? = some digitsEngine := by decide

/-- A length of 0, a length of 1 at the end of the buffer, and a negative offset, with the buffer bound and without, under
both policies. -/
theorem witness_EmptyInputGivesZero :
    digitsMachine.engines[digitsMachine.cur]? = some digitsEngine ∧ 0 < (Config.default.numEngines : Nat) ∧
      digitsMachine.engines[digitsMachine.cur]? = some digitsEngine.inReset ∧
      foldsNothing Config.default digitsEngine.src.len [.value, .updr 9 0, .updr 0 10, .updr (-1) 1, .tread 0#8] ∧
      foldsNothing faultingConfig digitsEngine.src.len [.value, .updr 9 0, .updr 9 1, .updr (-1) 1, .tread 0#8] ∧
      foldsNothing Config.default 0 [.value, .updr 0 0, .updr 0 1, .updr (-1) 1, .init] := by
  refine ⟨rfl, by decide, rfl, ?_, ?_, ?_⟩ <;>
    simp [foldsNothing, Instr.foldsNothing, Config.default, digitsEngine, digitsBuffer]

theorem witness_CheckValue :
    digitsMachine.tbl = genTable Config.default.poly ∧
      digitsMachine.engines[digitsMachine.cur]? = some digitsEngine ∧ digitsEngine.crc = preset ∧
      digitsEngine.src =
        Src.bind [0x31#8, 0x32#8, 0x33#8, 0x34#8, 0x35#8, 0x36#8, 0x37#8, 0x38#8, 0x39#8] := ⟨rfl, rfl, rfl, rfl⟩

/-- One word for each cause of R66, and the operand words of one of OP 0x3. -/
theorem witness_IllegalWordsEndInIllegalCommand :
    (∃ s u e, State.awaits s u e (0x00000103#32 :: [0#32, 0#32] ++ [0x00000001#32]) ∧ s.agenda = []) ∧
      (∃ s u e, State.awaits s u e (0x00000103#32 :: [0#32, 0#32] ++ [0x00000001#32]) ∧ s.agenda = [.serve 0]) ∧
      [0#32, 0#32].length = (if (0x00000103#32).extractLsb' 0 4 = 0x3#4 then 2 else 0) ∧
      (0x00000103#32).extractLsb' 8 8 ≠ 0#8 ∧ (0x00000103#32).extractLsb' 0 4 = 0x3#4 ∧
      (0x00000000#32).extractLsb' 0 4 = 0x0#4 ∧ 0x6#4 ≤ (0x00000006#32).extractLsb' 0 4 ∧
      ((0x00000005#32).extractLsb' 0 4 = 0x5#4 ∧ noTreadConfig.hasTread = false) ∧
      (0x00000011#32).extractLsb' 4 4 ≠ 0#4 ∧ (0x00010001#32).extractLsb' 16 16 ≠ 0#16 :=
  ⟨⟨_, _, _, withPort_awaits Config.default _, rfl⟩, ⟨_, _, _, withPort_awaits_named Config.default _ [], rfl⟩, by decide⟩

theorem witness_LegalityBeforeRange :
    let s := withPort Config.default [0x00000103#32, 0xFFFFFFFF#32, 0x00000001#32]
    ∃ u e t e', s.awaits u e (0x00000103#32 :: 0xFFFFFFFF#32 :: 0x00000001#32 :: []) ∧
      (0x00000103#32).extractLsb' 0 4 = 0x3#4 ∧ 0x00000103#32 ≠ 0x00000003#32 ∧ step s = .next t ∧
      t.engines[u.cur]? = some e' :=
  ⟨_, _, _, _, withPort_awaits Config.default _, by decide, by decide, rfl, rfl⟩

/-- A command that ends in each of the two errors. -/
theorem witness_ErrorsArePreciseUnderCheckFirst :
    (∃ t e', digitsMachine.cfg.rangePolicy = .checkFirst ∧ exec (.updr 9 1) digitsMachine = .next t ∧
      digitsMachine.engines[digitsMachine.cur]? = some digitsEngine ∧ t.engines[digitsMachine.cur]? = some e' ∧
      e'.rsp = digitsEngine.rsp ++ [⟨.range, 0#64⟩]) ∧
    (∃ t e', noTreadConfig.rangePolicy = .checkFirst ∧ exec (.tread 0#8) (machine noTreadConfig digitsEngine) = .next t ∧
      t.engines[0]? = some e' ∧ e'.rsp = digitsEngine.rsp ++ [⟨.illegal, 0#64⟩]) ∧
    RCode.range ≠ .ok ∧ RCode.illegal ≠ .ok :=
  ⟨⟨_, _, rfl, rfl, rfl, rfl, rfl⟩, ⟨_, _, rfl, rfl, rfl, rfl⟩, by decide, by decide⟩

theorem witness_OneResponsePerCommand : digitsMachine.engines[digitsMachine.cur]? = some digitsEngine := by decide

/-- A step of a machine with both STATUS bits set, a command that succeeds, and an input. -/
theorem witness_StatusBitsAreSticky :
    let s := machine Config.default { digitsEngine with status := 3#32, port := [0x00000001#32] }
    (∃ t, step s = .next t) ∧ s.agenda.head? ≠ some .assertReset ∧
      (∃ e, s.engines[0]? = some e ∧ errRange e.status = true ∧ errIllegal e.status = true) ∧
      (∃ t e', exec .value digitsMachine = .next t ∧ t.engines[digitsMachine.cur]? = some e' ∧
        e'.rsp = digitsEngine.rsp ++ [⟨.ok, ~~~ preset⟩]) ∧
      (∃ t, step { digitsMachine with agenda := [Input.takeResponse 0] } = .next t) :=
  ⟨⟨_, rfl⟩, by decide, ⟨_, rfl, by decide, by decide⟩, ⟨_, _, rfl, rfl, rfl⟩, ⟨_, rfl⟩⟩

theorem witness_HostInputsLeaveTheRegisters :
    let s := { digitsMachine with agenda := [Input.present 0 [0x00000001#32]] }
    s.agenda = .present 0 [0x00000001#32] :: [] ∧ (∃ t, step s = .next t) ∧
      Input.present 0 [0x00000001#32] ≠ .assertReset ∧ ∀ k, Input.present 0 [0x00000001#32] ≠ .serve k :=
  ⟨rfl, ⟨_, rfl⟩, by decide, fun _ h => by cases h⟩

theorem witness_StatusDoesNotChangeCommands :
    digitsMachine.engines[digitsMachine.cur]? = some digitsEngine := by decide

/-- A decoded command with nothing on the agenda, and with the engine named on it. -/
theorem witness_StepRunsTheDecodedCommand :
    let s := withPort Config.default [0x00003102#32, 0x00000004#32]
    let e := { digitsEngine with port := [0x00003102#32, 0x00000004#32] }
    s.phase = .ready ∧ s.engines[0]? = some e ∧
      decode s.cfg (e.accepted ++ e.port) = .command (.updb 0x31#8) [0x00000004#32] ∧ s.agenda = [] ∧
      s.cur = 0 ∧ ({ s with agenda := [Input.serve 0] } : State).agenda = .serve 0 :: [] :=
  ⟨rfl, rfl, by decide, rfl, rfl, rfl⟩

/-- With nothing on the agenda and with the engine named, and the held engine at a later turn. -/
theorem witness_IncompleteCommandHoldsTheEngine :
    (∃ s u e, State.awaits s u e (0x00000003#32 :: [0x00000005#32]) ∧ s.agenda = []) ∧
      (∃ s u e, State.awaits s u e (0x00000003#32 :: [0x00000005#32]) ∧ s.agenda = [.serve 0]) ∧
      (∃ s' u', State.awaits s' u'
        { digitsEngine with accepted := 0x00000003#32 :: [0x00000005#32], port := [] } (0x00000003#32 :: [0x00000005#32])) ∧
      (0x00000003#32).extractLsb' 0 4 = 0x3#4 ∧ [0x00000005#32].length < 2 :=
  ⟨⟨_, _, _, withPort_awaits Config.default _, rfl⟩, ⟨_, _, _, withPort_awaits_named Config.default _ [], rfl⟩,
    ⟨machine Config.default { digitsEngine with accepted := [0x00000003#32, 0x00000005#32], port := [] }, _,
      .inl ⟨rfl, rfl⟩, rfl, rfl, rfl⟩, by decide⟩

/-- Reset asserted, and the generator at work, with a command waiting; the second with the engine named. -/
theorem witness_CommandsWaitUntilResetCompletes :
    (∃ s u : State, s.turn u ∧ s.phase = .asserted ∧ s.phase ≠ .ready ∧ s.agenda = []) ∧
      (∃ s u : State, s.turn u ∧ s.phase = .generating (GenState.start 255) ∧ s.phase ≠ .ready ∧ s.agenda = [.serve 0]) :=
  ⟨⟨{ withPort Config.default [0x00000001#32] with phase := .asserted }, _, .inl ⟨rfl, rfl⟩, rfl, by decide, rfl⟩,
    ⟨{ withPort Config.default [0x00000001#32] with phase := .generating (GenState.start 255), agenda := [.serve 0] }, _,
      .inr ⟨0, [], rfl, by decide, rfl⟩, rfl, by decide, rfl⟩⟩

theorem witness_ResetValues : Engine.reset ∈ (State.resetOf Config.default).engines := by decide

theorem witness_ResetFromEveryState :
    let s := { withPort Config.default [0x00000003#32] with agenda := [.assertReset, .releaseReset] }
    s.agenda = [.assertReset, .releaseReset] ∧ 0 < 1 ∧ 1 < 2 + 256 * 8 ∧
      ∃ t, Host.Core.run Sys2Proof.core 1 s = .next t := ⟨rfl, by decide, by decide, _, rfl⟩

theorem witness_EnginesDoNotInterfere :
    0 ≠ 1 ∧ twoEngines.engines[0]? = some digitsEngine ∧ twoEngines.engines[1]? = some digitsEngine ∧
      digitsEngine.src.racing = [] := by decide

/-- A sequence of exactly SRC_LEN_MAX bytes, with SRC_LEN_MAX 2, and one that is one too long. -/
theorem witness_BindingMakesTheBuffer :
    let s := { machine { Config.default with srcLenMax := 2 } digitsEngine with
      agenda := [Input.bindSrc 0 [0x00#8, 0x31#8]] }
    s.agenda = .bindSrc 0 [0x00#8, 0x31#8] :: [] ∧ s.engines[0]? = some digitsEngine ∧
      [0x00#8, 0x31#8].length = s.cfg.srcLenMax ∧ [0x00#8, 0x31#8].length ≤ s.cfg.srcLenMax ∧
      s.cfg.srcLenMax < [0x00#8, 0x31#8, 0x32#8].length := ⟨rfl, rfl, rfl, by decide, by decide⟩

theorem witness_SourceWriteChangesOneByte :
    let s := { digitsMachine with agenda := [Input.writeSrc 0 8 0x00#8] }
    s.agenda = .writeSrc 0 8 0x00#8 :: [] ∧ s.engines[0]? = some digitsEngine ∧ Memory.wf digitsEngine.src.mem ∧
      8 < digitsEngine.src.len := ⟨rfl, rfl, Memory.ofBytes_wf 0 _, by decide⟩

theorem witness_PortInputsChangeOnlyTheirPort :
    digitsMachine.engines[0]? = some digitsEngine ∧
      ({ digitsMachine with agenda := [Input.present 0 [0x00000001#32]] } : State).agenda =
        .present 0 [0x00000001#32] :: [] ∧
      ({ digitsMachine with agenda := [Input.takeResponse 0] } : State).agenda = .takeResponse 0 :: [] ∧
      ({ digitsMachine with agenda := [Input.writeSrcDuring 0 8 0xAA#8] } : State).agenda =
        .writeSrcDuring 0 8 0xAA#8 :: [] := ⟨rfl, rfl, rfl, rfl⟩

theorem witness_InputsLeaveTheOtherEngines :
    let s := { twoEngines with agenda := [Input.bindSrc 1 [0x31#8]] }
    s.agenda = Input.bindSrc 1 [0x31#8] :: [] ∧ (Input.bindSrc 1 [0x31#8]).engine? = some 1 ∧ (∃ t, step s = .next t) ∧
      0 ≠ 1 := ⟨rfl, rfl, ⟨_, rfl⟩, by decide⟩

/-- A state whose served engine there is not. -/
theorem witness_CommandsNeedAnEngine :
    ({ digitsMachine with cur := 1 } : State).engines[({ digitsMachine with cur := 1 } : State).cur]? = none := by decide

/-- The machine right after reset with nothing bound meets the invariant, and steps. -/
theorem resetMachine_inv : State.reset.Inv :=
  ⟨rfl, by decide, fun e he => by
    rcases List.mem_singleton.mp (show e ∈ [Engine.reset] from he) with rfl
    exact ⟨by decide, rfl, by decide, ⟨List.Pairwise.nil, by simp [Engine.reset, Src.unbound]⟩,
      by simp [Engine.reset, Src.unbound]⟩, rfl⟩

theorem witness_StepKeepsTheInvariant : State.reset.Inv ∧ ∃ t, step State.reset = .next t := ⟨resetMachine_inv, _, rfl⟩

theorem witness_TheMachineNeverStops :
    State.reset.Inv ∧ ∀ x, State.reset.agenda.head? = some x → x.allowed State.reset.cfg = true :=
  ⟨resetMachine_inv, fun x h => by cases h⟩

theorem witness_AssemblyLinesGiveTheirWords :
    (Instr.updr (-2147483648) 2147483647).wf 32 = true ∧ (Instr.updr 2147483648 0).wf 32 = false := by decide

theorem witness_UpdAllEqualsUpdStr :
    digitsMachine.engines[digitsMachine.cur]? = some digitsEngine ∧
      digitsEngine.src =
        Src.bind [0x31#8, 0x32#8, 0x33#8, 0x34#8, 0x35#8, 0x36#8, 0x37#8, 0x38#8, 0x39#8] := ⟨rfl, rfl⟩

end Sys2Proof.Tests
end

section
/-! PROOF. The obligations of the scope (spec/00_scope.md): operand words of any IDX_W, the parameters, and the check
value. -/

namespace Sys2Proof

/-! ### Operands of any width (log 4) -/

/-- An operand no wider than the word is the low IDX_W bits of the word, as two's complement. -/
theorem operandInt_narrow (idxW : PNat) (w : Word) (h : (idxW : Nat) ≤ 32) :
    operandInt idxW w = if w.toNat % 2 ^ (idxW : Nat) < 2 ^ ((idxW : Nat) - 1) then (w.toNat % 2 ^ (idxW : Nat) : Int)
      else (w.toNat % 2 ^ (idxW : Nat) : Int) - 2 ^ (idxW : Nat) := by
  obtain ⟨n, hn⟩ : ∃ n, (idxW : Nat) = n + 1 := ⟨(idxW : Nat) - 1, by have := idxW.pos; omega⟩
  have hsign : 2 * (w.toNat % 2 ^ (n + 1)) < 2 ^ (n + 1) ↔ w.toNat % 2 ^ (n + 1) < 2 ^ n := by
    rw [Nat.pow_succ']; omega
  rw [operandInt, BitVec.signExtend_eq_setWidth_of_le w h, BitVec.toInt_eq_toNat_cond, BitVec.toNat_setWidth, hn]
  simp only [hsign, Nat.add_sub_cancel]
  push_cast
  rfl

/-- The word 0x00000003 and two operand words are an UPDR, in every realisation. -/
theorem decode_updr (cfg : Config) (o l : Word) (rest : List Word) :
    decode cfg (0x00000003#32 :: o :: l :: rest) =
      .command (.updr (operandInt cfg.idxW o) (operandInt cfg.idxW l)) rest := by
  rw [show (0x00000003#32 : Word) = commandWord 0x3#4 0#8 by decide, decode_three _ _ _ _ _ (fieldOp_commandWord ..)]
  simp [decodeComplete, readCommand_eq, withoutImmediate]

/-- Settles O5: up to 32 bits an operand is the low bits of its word, and from 32 on the whole word. -/
theorem operandsOfOtherWidths : Obligations.OperandsOfOtherWidths :=
  ⟨decode_updr, operandInt_narrow, operandInt_wide⟩

end Sys2Proof

namespace Sys2Proof.Machine

/-! ### The parameters (R29) -/

@[simp] theorem State.releaseReset_cfg (s : State) : s.releaseReset.cfg = s.cfg := by rw [State.releaseReset_eq]

@[simp] theorem State.generate_cfg (s : State) (g : GenState) : (s.generate g).cfg = s.cfg := by rw [State.generate_eq]

/-- No command writes the parameters. -/
theorem exec_cfg {i : Instr} {s t : State} (h : exec i s = .next t) : t.cfg = s.cfg := by
  obtain ⟨e, -, rfl⟩ := exec_next h
  rfl

/-- No input writes the parameters. -/
theorem accept_cfg {s t : State} {x : Input} (h : s.accept x = .next t) : t.cfg = s.cfg := by
  obtain ⟨_, _, _, rfl⟩ | ⟨_, _, _, _, _, rfl⟩ | ⟨_, _, _, _, _, _, rfl⟩ | ⟨_, _, _, _, _, _, rfl⟩ |
    ⟨_, _, _, _, _, _, rfl⟩ | ⟨_, _, _, _, rfl⟩ | ⟨_, rfl⟩ | ⟨_, rfl⟩ := accept_next h <;> simp

/-- The machine that goes on by itself does not write the parameters. -/
theorem serve_cfg {s t : State} (h : s.serve = .next t) : t.cfg = s.cfg := by
  obtain ⟨_, rfl⟩ | ⟨g, _, rfl⟩ | ⟨_, hrun⟩ := serve_next h
  · rfl
  · exact s.generate_cfg g
  · obtain ⟨_, _, _, _, rfl, _⟩ := runCommand_next hrun
    rfl

/-- No step writes the parameters. -/
theorem step_cfg {s t : State} (h : step s = .next t) : t.cfg = s.cfg := by
  obtain ⟨_, hserve⟩ | ⟨_, _, _, _, hserve⟩ | ⟨_, _, _, _, haccept⟩ := step_next h
  · exact serve_cfg hserve
  · exact (serve_cfg hserve :)
  · exact (accept_cfg haccept :)

/-- Settles O14: every command and every step keeps cfg. -/
theorem parametersAreNeverWritten : Obligations.ParametersAreNeverWritten :=
  ⟨fun _ _ _ => exec_cfg, fun _ _ => step_cfg⟩

/-! ### The check value (R2, R109) -/

/-- UPDR on a valid range folds its bytes, under either policy (R107, R108). -/
theorem updateRange_of_valid (policy : RangePolicy) (t : Table) (rd : Nat → Byte) (start count n : Nat) (c : U64)
    (h : start + count ≤ n) :
    updateRange policy t rd n start count c = (foldSeq t c (bytesFrom rd start count), true) := by
  cases policy with
  | checkFirst =>
    have hvalid : validRange start count n = true := decide_eq_true ⟨by omega, by omega, by omega⟩
    simp [updateRange, hvalid]
  | foldUntilFault => exact foldUntil_inside t rd n count start c h

/-- The bytes of a bound buffer, from its first index to its last. -/
theorem bytesFrom_bind (draw : Nat) (bytes : List Byte) :
    bytesFrom (srcRead draw (Src.bind bytes)) 0 bytes.length = bytes := by
  rw [srcRead_of_no_racing _ _ (Src.bind_racing bytes), bytesFrom_eq_map]
  refine List.ext_getElem (by simp) fun i _ hi => ?_
  simpa [Src.bind] using Memory.read_ofBytes 0 i bytes hi

/-- UPDR on the whole of a bound buffer folds its bytes and responds (OK, 0), under either policy (R107, R108). -/
theorem updrEngine_bind (policy : RangePolicy) (t : Table) (draw : Nat) (e : Engine) (bytes : List Byte)
    (h : e.src = Src.bind bytes) :
    updrEngine policy t draw 0 bytes.length e =
      { e with crc := foldSeq t e.crc bytes, rsp := e.rsp ++ [⟨.ok, 0#64⟩] } := by
  have hrange : updateRange policy t (srcRead draw e.src) e.src.len 0 bytes.length e.crc =
      (foldSeq t e.crc bytes, true) := by
    simpa [h, bytesFrom_bind] using
      updateRange_of_valid policy t (srcRead draw e.src) 0 bytes.length bytes.length e.crc (by omega)
  have hsettle : e.src.settle = e.src := Src.settle_of_no_racing _ (by rw [h, Src.bind_racing])
  rw [updrEngine_eq, hrange, hsettle]
  rfl

/-- A command on an engine that there is completes, with its effect on that engine, which stays the served one. -/
theorem exec_engine (i : Instr) {s : State} {e : Engine} (he : s.engines[s.cur]? = some e) :
    ∃ t, exec i s = .next t ∧ t.cur = s.cur ∧ t.engines[s.cur]? = some (effect s.cfg s.tbl s.draws i e) :=
  ⟨_, exec_some i he, rfl, State.setEngine_self _ he⟩

/-- UPDR on the whole of a bound buffer, then VALUE: the responses are (OK, 0) and the complement of the fold
(R107, R110). -/
theorem runCommands_updr_value (s : State) (e : Engine) (bytes : List Byte) (he : s.engines[s.cur]? = some e)
    (h : e.src = Src.bind bytes) :
    ∃ t e', runCommands [.updr 0 bytes.length, .value] s = .next t ∧ t.engines[s.cur]? = some e' ∧
      e'.rsp = e.rsp ++ [⟨.ok, 0#64⟩, ⟨.ok, ~~~ foldSeq s.tbl e.crc bytes⟩] := by
  obtain ⟨u, hupdr, hcur, heu⟩ := exec_engine (.updr 0 bytes.length) he
  rw [← hcur] at heu
  obtain ⟨t, hvalue, -, het⟩ := exec_engine .value heu
  refine ⟨t, _, by simp only [runCommands, hupdr, hvalue], hcur ▸ het, ?_⟩
  simp [effect, updrEngine_bind _ _ _ _ _ h]

/-- S1: the digits "123456789", folded from the preset with the table of the default POLY. -/
theorem foldSeq_digits :
    ~~~ foldSeq (genTable Config.default.poly) preset
      [0x31#8, 0x32#8, 0x33#8, 0x34#8, 0x35#8, 0x36#8, 0x37#8, 0x38#8, 0x39#8] = 0x995DC9BBDF1939FA#64 := by
  decide +kernel

/-- Settles O31: the responses of UPDR and VALUE for any bound buffer, at the nine digits; the two orders of two digits
are evaluated. -/
theorem checkValue : Obligations.CheckValue := by
  refine ⟨fun s e htbl he hcrc hsrc => ?_, by decide +kernel, by decide +kernel⟩
  have hrun := runCommands_updr_value s e _ he hsrc
  rwa [htbl, hcrc, foldSeq_digits] at hrun

end Sys2Proof.Machine
end

section
/-! PROOF. The obligations of the state (spec/10_state.md): the invariant, the reset values, and what commands and host
inputs leave unchanged. -/

namespace Sys2Proof.Machine

/-! ### The invariant of a source buffer and of an engine -/

section BufferInvariant
variable {maxLen : Nat} {src : Src}

/-- A bound sequence of an allowed length is in canonical form. -/
theorem Src.Inv.bind {bytes : List Byte} (h : bytes.length ≤ maxLen) : (Src.bind bytes).Inv maxLen :=
  ⟨h, Memory.ofBytes_wf 0 bytes, fun c hc => by simpa using (Memory.ofBytes_mem 0 bytes c hc).2⟩

/-- A host's write keeps the canonical form. -/
theorem Src.Inv.write (h : src.Inv maxLen) (i : Nat) (b : Byte) : (src.write i b).Inv maxLen := by
  obtain ⟨hlen, hwf, hbound⟩ := h
  refine ⟨by simpa using hlen, Src.write_wf src i b hwf, ?_⟩
  simpa using Src.write_bounded src i b hbound

/-- The racing writes keep the canonical form. -/
theorem Src.Inv.settle (h : src.Inv maxLen) : src.settle.Inv maxLen := by
  obtain ⟨hlen, hwf, hbound⟩ := h
  refine ⟨by simpa using hlen, Src.settle_wf src hwf, ?_⟩
  simpa using Src.settle_bounded src hwf hbound

end BufferInvariant

section EngineInvariant
variable {cfg : Config} {e : Engine}

/-- An engine at its reset values, with an empty buffer. -/
theorem Engine.reset_inv (cfg : Config) : Engine.reset.Inv cfg :=
  ⟨by decide, rfl, Nat.zero_le _, ⟨List.Pairwise.nil, by simp [Engine.reset, Src.unbound]⟩,
    by simp [Engine.reset, Src.unbound]⟩

theorem Engine.Inv.inReset (h : e.Inv cfg) : e.inReset.Inv cfg := by
  obtain ⟨-, -, hsrc⟩ := h
  exact ⟨(by decide : statusReserved 0#32 = 0#30), rfl, hsrc⟩

theorem Engine.Inv.taken (h : e.Inv cfg) (rest : List Word) : (e.taken rest).Inv cfg := by
  obtain ⟨hstatus, -, hsrc⟩ := h
  exact ⟨hstatus, rfl, hsrc⟩

theorem Engine.Inv.held (h : e.Inv cfg) (hd : decode cfg e.stream = .incomplete) : e.held.Inv cfg := by
  obtain ⟨hstatus, -, hsrc⟩ := h
  exact ⟨hstatus, hd, hsrc⟩

/-- The error bits are none of the reserved ones (R23, R144). -/
theorem Engine.Inv.raise (h : e.Inv cfg) (err : Err) : (e.raise err).Inv cfg := by
  obtain ⟨hstatus, haccepted, hsrc⟩ := h
  exact ⟨(statusReserved_setStatus e.status err).trans hstatus, haccepted, hsrc⟩

/-- A command keeps its engine's invariant: of what it speaks of, a command sets error bits and settles the buffer. -/
theorem Engine.Inv.effect (h : e.Inv cfg) (t : Table) (draw : Nat) (i : Instr) :
    (effect cfg t draw i e).Inv cfg := by
  obtain ⟨hstatus, haccepted, hsrc⟩ := h
  refine ⟨?_, by rwa [effect_accepted], ?_⟩
  · obtain hs | ⟨err, hs⟩ := effect_status cfg t draw i e
    · rwa [hs]
    · rwa [hs, statusReserved_setStatus]
  · obtain hb | hb := effect_src cfg t draw i e
    · rwa [hb]
    · rw [hb]
      exact hsrc.settle

end EngineInvariant

/-! ### What an input does -/

/-- What a host's input at an engine's port, buffer or responses keeps of that engine: the registers (R25), the
words taken of a command in progress, and the canonical form of the buffer (R42). -/
structure Engine.HostChange (cfg : Config) (e e' : Engine) : Prop where
  crc : e'.crc = e.crc
  status : e'.status = e.status
  accepted : e'.accepted = e.accepted
  src : e.src.Inv cfg.srcLenMax → e'.src.Inv cfg.srcLenMax

/-- A host's input keeps its engine's invariant. -/
theorem Engine.HostChange.inv {cfg : Config} {e e' : Engine} (hc : e.HostChange cfg e') (h : e.Inv cfg) :
    e'.Inv cfg := by
  obtain ⟨hstatus, haccepted, hsrc⟩ := h
  exact ⟨by rwa [hc.status], by rwa [hc.accepted], hc.src hsrc⟩

/-- An input names the served engine, is a host's act at one engine, or drives reset. -/
theorem accept_cases {s t : State} {x : Input} (h : s.accept x = .next t) :
    (∃ k, x = .serve k ∧ k < s.engines.length ∧ t = { s with cur := k }) ∨
      (∃ k e e', x.engine? = some k ∧ s.engines[k]? = some e ∧ t = s.setEngineAt k e' ∧ e.HostChange s.cfg e') ∨
      (x = .assertReset ∧ t = s.assertReset) ∨ (x = .releaseReset ∧ t = s.releaseReset) := by
  obtain hserve | ⟨k, ws, e, rfl, he, ht⟩ | ⟨k, bytes, e, rfl, hlen, he, ht⟩ | ⟨k, index, b, e, rfl, he, ht⟩ |
    ⟨k, index, b, e, rfl, he, ht⟩ | ⟨k, e, rfl, he, ht⟩ | hassert | hrelease := accept_next h
  · exact .inl hserve
  · exact .inr (.inl ⟨k, e, _, rfl, he, ht, ⟨rfl, rfl, rfl, id⟩⟩)
  · exact .inr (.inl ⟨k, e, _, rfl, he, ht, ⟨rfl, rfl, rfl, fun _ => .bind hlen⟩⟩)
  · exact .inr (.inl ⟨k, e, _, rfl, he, ht, ⟨rfl, rfl, rfl, fun hsrc => hsrc.write index b⟩⟩)
  · exact .inr (.inl ⟨k, e, _, rfl, he, ht, ⟨rfl, rfl, rfl, id⟩⟩)
  · exact .inr (.inl ⟨k, e, _, rfl, he, ht, ⟨rfl, rfl, rfl, id⟩⟩)
  · exact .inr (.inr (.inl hassert))
  · exact .inr (.inr (.inr hrelease))

/-- An input at one engine's port, buffer or responses replaces that engine by one with the same registers. -/
theorem accept_of_engine {s t : State} {x : Input} {k : Nat} (hx : x.engine? = some k) (h : s.accept x = .next t) :
    ∃ e e', s.engines[k]? = some e ∧ t = s.setEngineAt k e' ∧ e.HostChange s.cfg e' := by
  obtain ⟨_, rfl, -, -⟩ | ⟨k', e, e', hk', he, ht, hc⟩ | ⟨rfl, -⟩ | ⟨rfl, -⟩ := accept_cases h
  · cases hx
  · obtain rfl : k = k' := Option.some.inj (hx.symm.trans hk')
    exact ⟨e, e', he, ht, hc⟩
  · cases hx
  · cases hx

@[simp] theorem State.releaseReset_engines (s : State) : s.releaseReset.engines = s.engines := by
  rw [State.releaseReset_eq]

@[simp] theorem State.generate_engines (s : State) (g : GenState) : (s.generate g).engines = s.engines := by
  rw [State.generate_eq]

/-! ### The invariant at reset (R33) -/

/-- Settles O42: the reset state is written down with these values. -/
theorem resetValues : Obligations.ResetValues := by
  intro cfg
  refine ⟨rfl, List.length_replicate, genTable_entry cfg.poly, fun e he => ?_⟩
  obtain rfl := List.eq_of_mem_replicate he
  exact ⟨rfl, rfl, rfl, rfl⟩

/-- Right after reset every engine is `Engine.reset` and the table is generated. -/
theorem State.resetOf_inv (cfg : Config) : (State.resetOf cfg).Inv := by
  have hlen : (State.resetOf cfg).engines.length = cfg.numEngines := List.length_replicate
  refine ⟨hlen, hlen ▸ cfg.numEngines.pos, fun e he => ?_, rfl⟩
  obtain rfl := List.eq_of_mem_replicate he
  exact Engine.reset_inv cfg

/-- Settles O50: the default realisation is one of all. -/
theorem invariantAtReset : Obligations.InvariantAtReset := ⟨State.resetOf_inv, State.resetOf_inv _⟩

/-! ### Every step keeps the invariant -/

/-- The eighth iteration of an index stores its entry, behind those of the lower indices (R80, R81). -/
theorem entry_of_stored {poly : U64} {t : Table} {g : GenState} (h : tableInv poly t (.generating g))
    (hlast : ¬ g.iter + 1 < genIter) (b : Byte) (hb : b.toNat < g.idx + 1) :
    Table.entry (t.setIfInBounds g.idx (genStep poly g.r)) b = gen poly b := by
  obtain ⟨-, hiter, hr, hentries⟩ := h
  rw [entry_setIfInBounds]
  split
  · rename_i hidx
    have hcount : g.iter + 1 = genIter := by omega
    rw [hr, ← genRun_succ, hcount, hidx, BitVec.ofNat_toNat, BitVec.setWidth_eq, gen]
  · exact hentries b (by omega)

/-- An iteration of the generator keeps what the table holds, and the last one completes it (R81). -/
theorem tableInv_advance {poly : U64} {t : Table} {g : GenState} (h : tableInv poly t (.generating g)) :
    tableInv poly (g.advance poly t).2 ((g.advance poly t).1.elim .ready .generating) := by
  by_cases hlast : g.iter + 1 < genIter
  · obtain ⟨hidx, -, hr, hentries⟩ := h
    simp only [GenState.advance, if_pos hlast]
    exact ⟨hidx, hlast, by rw [hr, genRun_succ], hentries⟩
  · have hstored := entry_of_stored h hlast
    by_cases hmore : g.idx < 255
    · simp only [GenState.advance, if_neg hlast, if_pos hmore]
      exact ⟨Nat.succ_lt_succ hmore, (by decide : 0 < genIter), rfl, hstored⟩
    · simp only [GenState.advance, if_neg hlast, if_neg hmore]
      refine table_ext _ _ fun b => ?_
      rw [genTable_entry]
      exact hstored b (by have := b.isLt; omega)

namespace State.Inv
variable {s : State}

/-- Every engine that there is meets its invariant. -/
theorem engine (hs : s.Inv) {k : Nat} {e : Engine} (he : s.engines[k]? = some e) : e.Inv s.cfg := by
  obtain ⟨-, -, hengines, -⟩ := hs
  exact hengines e (List.mem_of_getElem? he)

/-- Replacing an engine by one that meets its invariant. -/
theorem setEngineAt (hs : s.Inv) (k : Nat) {e : Engine} (he : e.Inv s.cfg) : (s.setEngineAt k e).Inv := by
  obtain ⟨hlen, hcur, hengines, htbl⟩ := hs
  refine ⟨by simpa using hlen, by simpa using hcur, fun e' he' => ?_, htbl⟩
  obtain h | rfl := List.mem_or_eq_of_mem_set he'
  · exact hengines e' h
  · exact he

/-- The invariant does not speak of what is to come. -/
theorem withAgenda (hs : s.Inv) (more : List Input) : State.Inv { s with agenda := more } := hs

/-- Whose turn it is may be any engine that there is. -/
theorem withCur (hs : s.Inv) {k : Nat} (hk : k < s.engines.length) : State.Inv { s with cur := k } := by
  obtain ⟨hlen, -, hengines, htbl⟩ := hs
  exact ⟨hlen, hk, hengines, htbl⟩

theorem assertReset (hs : s.Inv) : s.assertReset.Inv := by
  obtain ⟨hlen, hcur, hengines, -⟩ := hs
  refine ⟨by simpa using hlen, by simpa using hcur, fun e' he' => ?_, trivial⟩
  obtain ⟨e, he, rfl⟩ := List.mem_map.mp he'
  exact (hengines e he).inReset

/-- The generator starts with no entry made. -/
theorem releaseReset (hs : s.Inv) : s.releaseReset.Inv := by
  obtain ⟨hlen, hcur, hengines, htbl⟩ := hs
  rw [State.releaseReset_eq]
  refine ⟨hlen, hcur, hengines, ?_⟩
  dsimp only
  split
  · exact ⟨by decide, by decide, rfl, fun b hb => absurd hb (Nat.not_lt_zero _)⟩
  · exact htbl

theorem generate (hs : s.Inv) {g : GenState} (hp : s.phase = .generating g) : (s.generate g).Inv := by
  obtain ⟨hlen, hcur, hengines, htbl⟩ := hs
  rw [hp] at htbl
  rw [State.generate_eq]
  exact ⟨hlen, hcur, hengines, tableInv_advance htbl⟩

/-- Taking a command keeps the invariant, whether it is executed, illegal or incomplete (R62). -/
theorem runCommand (hs : s.Inv) {t : State} (h : s.runCommand = .next t) : t.Inv := by
  obtain ⟨e, e', d, he, rfl, hcase⟩ := runCommand_next h
  have hinv := hs.engine he
  have hinv' : e'.Inv s.cfg := by
    obtain ⟨i, rest, -, rfl, -⟩ | ⟨why, rest, -, rfl, -⟩ | ⟨hd, rfl, -⟩ := hcase
    · exact (hinv.taken rest).effect ..
    · exact (hinv.taken rest).raise _
    · exact hinv.held hd
  exact setEngineAt (s := { s with draws := d }) hs s.cur hinv'

/-- The machine that goes on by itself keeps the invariant. -/
theorem serve (hs : s.Inv) {t : State} (h : s.serve = .next t) : t.Inv := by
  obtain ⟨-, rfl⟩ | ⟨g, hp, rfl⟩ | ⟨-, hrun⟩ := serve_next h
  · exact hs
  · exact hs.generate hp
  · exact hs.runCommand hrun

/-- Every input keeps the invariant. -/
theorem accept (hs : s.Inv) {x : Input} {t : State} (h : s.accept x = .next t) : t.Inv := by
  obtain ⟨k, -, hk, rfl⟩ | ⟨k, e, e', -, he, rfl, hc⟩ | ⟨-, rfl⟩ | ⟨-, rfl⟩ := accept_cases h
  · exact hs.withCur hk
  · exact hs.setEngineAt k (hc.inv (hs.engine he))
  · exact hs.assertReset
  · exact hs.releaseReset

end State.Inv

/-- Settles O51: the invariant is kept by each thing that a step can do. -/
theorem stepKeepsTheInvariant : Obligations.StepKeepsTheInvariant := by
  intro s t hs h
  obtain ⟨-, hserve⟩ | ⟨k, rest, -, hk, hserve⟩ | ⟨x, rest, -, -, haccept⟩ := step_next h
  · exact hs.serve hserve
  · exact ((hs.withAgenda rest).withCur hk).serve hserve
  · exact (hs.withAgenda rest).accept haccept

/-! ### The frame of the commands that read no buffer (R44, R103) -/

section RegisterCommands
variable (cfg : Config) (t : Table) (draw : Nat) {i : Instr} (e : Engine)

/-- Only UPDR advances the counter. -/
theorem drawStep_of_not_updr (hi : ∀ off len, i ≠ .updr off len) : drawStep i = 0 := by
  cases i with
  | updr off len => exact absurd rfl (hi off len)
  | _ => rfl

/-- Only UPDR lets racing writes land. -/
theorem effect_src_of_not_updr (hi : ∀ off len, i ≠ .updr off len) : (effect cfg t draw i e).src = e.src := by
  cases i with
  | updr off len => exact absurd rfl (hi off len)
  | tread index => simp only [effect]; split <;> rfl
  | _ => rfl

/-- VALUE and TREAD do not write the register (R85, R110). -/
theorem effect_crc_of_read (hi : i = .value ∨ ∃ x, i = .tread x) : (effect cfg t draw i e).crc = e.crc := by
  obtain rfl | ⟨x, rfl⟩ := hi
  · rfl
  · simp only [effect]; split <;> rfl

/-- Of these commands only a TREAD that the realisation lacks ends in an error (R85). -/
theorem effect_status_of_not_updr (hi : ∀ off len, i ≠ .updr off len)
    (htread : (∀ x, i ≠ .tread x) ∨ cfg.hasTread = true) : (effect cfg t draw i e).status = e.status := by
  cases i with
  | updr off len => exact absurd rfl (hi off len)
  | tread index =>
    have hhas : cfg.hasTread = true := htread.resolve_left fun hne => hne index rfl
    simp only [effect, if_pos hhas, Engine.respond_status]
  | _ => rfl

end RegisterCommands

/-- Settles O22: a command replaces its own engine, and what it does to that engine is its effect. -/
theorem frameOfRegisterCommands : Obligations.FrameOfRegisterCommands := by
  intro i s t e hi h he
  obtain ⟨e₀, he₀, rfl⟩ := exec_next h
  obtain rfl : e = e₀ := Option.some.inj (he.symm.trans he₀)
  have hsrc := effect_src_of_not_updr s.cfg s.tbl s.draws e hi
  refine ⟨_, State.setEngine_self _ he, fun k hk => State.setEngineAt_other _ _ hk, List.length_set, rfl, rfl, rfl, rfl,
    rfl, ?_, effect_accepted .., effect_port .., by rw [hsrc], by rw [hsrc], fun a => by rw [hsrc],
    effect_crc_of_read _ _ _ _, effect_status_of_not_updr _ _ _ _ hi⟩
  simp [drawStep_of_not_updr hi]

/-! ### What host inputs leave (R21, R25) -/

/-- Replacing an engine changes no reading of the engines in which the two agree. -/
theorem State.map_engines_setEngineAt {α : Type} (f : Engine → α) {s : State} {k : Nat} {e e' : Engine}
    (he : s.engines[k]? = some e) (hf : f e' = f e) : (s.setEngineAt k e').engines.map f = s.engines.map f := by
  obtain ⟨hk, rfl⟩ := List.getElem?_eq_some_iff.mp he
  rw [State.setEngineAt_engines, List.map_set, hf, ← List.getElem_map f (h := by simpa using hk), List.set_getElem_self]

/-- Settles O37: a host's input at an engine keeps its registers, and a release changes the phase only. -/
theorem hostInputsLeaveTheRegisters : Obligations.HostInputsLeaveTheRegisters := by
  intro s t x rest ha h hassert hserve
  rw [step_of_input ha hserve] at h
  obtain ⟨k, hx, -, -⟩ | ⟨k, e, e', -, he, rfl, hc⟩ | ⟨hx, -⟩ | ⟨-, rfl⟩ := accept_cases h
  · exact absurd hx (hserve k)
  · exact State.map_engines_setEngineAt _ he (by rw [hc.crc, hc.status])
  · exact absurd hx hassert
  · rw [State.releaseReset_engines]

/-- Settles O48: such an input replaces one engine. -/
theorem inputsLeaveTheOtherEngines : Obligations.InputsLeaveTheOtherEngines := by
  intro s t x rest k ha hx h
  have hserve : ∀ j, x ≠ .serve j := by
    rintro j rfl
    cases hx
  rw [step_of_input ha hserve] at h
  obtain ⟨e, e', -, rfl, -⟩ := accept_of_engine hx h
  exact ⟨fun j hj => State.setEngineAt_other _ _ hj, List.length_set, rfl, rfl, rfl, rfl, rfl, rfl⟩

/-! ### STATUS bits are sticky (R24) -/

/-- Every error bit of one STATUS value is set in another. -/
def statusKept (st st' : Word) : Prop :=
  (errRange st = true → errRange st' = true) ∧ (errIllegal st = true → errIllegal st' = true)

theorem statusKept_refl (st : Word) : statusKept st st := ⟨id, id⟩

/-- Setting a bit clears none. -/
theorem statusKept_setStatus (st : Word) (err : Err) : statusKept st (setStatus st err) := by
  refine ⟨fun h => ?_, fun h => ?_⟩
  · rw [errRange_setStatus, h, Bool.true_or]
  · rw [errIllegal_setStatus, h, Bool.true_or]

/-- A command clears no STATUS bit of its engine. -/
theorem statusKept_effect (cfg : Config) (t : Table) (draw : Nat) (i : Instr) (e : Engine) :
    statusKept e.status (effect cfg t draw i e).status := by
  obtain h | ⟨err, h⟩ := effect_status cfg t draw i e
  · rw [h]
    exact statusKept_refl _
  · rw [h]
    exact statusKept_setStatus _ _

/-- Every engine is still there, with its error bits. -/
def State.statusesKept (s t : State) : Prop :=
  ∀ (k : Nat) (e : Engine), s.engines[k]? = some e → ∃ e', t.engines[k]? = some e' ∧ statusKept e.status e'.status

/-- The engines' STATUS values unchanged are kept. -/
theorem statusesKept_of_map_eq {s t : State} (h : t.engines.map Engine.status = s.engines.map Engine.status) :
    s.statusesKept t := by
  intro k e he
  have hk : (t.engines.map Engine.status)[k]? = some e.status := by rw [h, List.getElem?_map, he, Option.map_some]
  rw [List.getElem?_map, Option.map_eq_some_iff] at hk
  obtain ⟨e', he', hst⟩ := hk
  exact ⟨e', he', hst ▸ statusKept_refl _⟩

/-- Replacing an engine by one that keeps its error bits. -/
theorem statusesKept_setEngineAt {s : State} {k : Nat} {e e' : Engine} (he : s.engines[k]? = some e)
    (h : statusKept e.status e'.status) : s.statusesKept (s.setEngineAt k e') := by
  intro j ej hj
  by_cases hjk : j = k
  · subst hjk
    obtain rfl : e = ej := Option.some.inj (he.symm.trans hj)
    exact ⟨e', State.setEngineAt_self e' he, h⟩
  · exact ⟨ej, (State.setEngineAt_other s e' hjk).trans hj, statusKept_refl _⟩

/-- Taking a command clears no STATUS bit. -/
theorem statusesKept_runCommand {s t : State} (h : s.runCommand = .next t) : s.statusesKept t := by
  obtain ⟨e, e', d, he, rfl, hcase⟩ := runCommand_next h
  have hkept : statusKept e.status e'.status := by
    obtain ⟨i, rest, -, rfl, -⟩ | ⟨why, rest, -, rfl, -⟩ | ⟨-, rfl, -⟩ := hcase
    · exact statusKept_effect s.cfg s.tbl s.draws i (e.taken rest)
    · exact statusKept_setStatus e.status .illegalCommand
    · exact statusKept_refl e.status
  exact statusesKept_setEngineAt he hkept

/-- The machine that goes on by itself clears no STATUS bit. -/
theorem statusesKept_serve {s t : State} (h : s.serve = .next t) : s.statusesKept t := by
  obtain ⟨-, rfl⟩ | ⟨g, -, rfl⟩ | ⟨-, hrun⟩ := serve_next h
  · exact statusesKept_of_map_eq rfl
  · exact statusesKept_of_map_eq (by rw [State.generate_engines])
  · exact statusesKept_runCommand hrun

/-- An input that drives no reset and serves no engine leaves every STATUS. -/
theorem step_status_of_host_input {s t : State} {x : Input} {rest : List Input} (ha : s.agenda = x :: rest)
    (h : step s = .next t) (hassert : x ≠ .assertReset) (hserve : ∀ k, x ≠ .serve k) :
    t.engines.map Engine.status = s.engines.map Engine.status := by
  have hregisters := hostInputsLeaveTheRegisters s t x rest ha h hassert hserve
  simpa [Function.comp_def] using congrArg (List.map Prod.snd) hregisters

/-- No step but an assertion of reset clears a STATUS bit. -/
theorem statusesKept_step {s t : State} (h : step s = .next t) (hreset : s.agenda.head? ≠ some .assertReset) :
    s.statusesKept t := by
  obtain ⟨-, hserve⟩ | ⟨k, rest, -, -, hserve⟩ | ⟨x, rest, ha, hx, -⟩ := step_next h
  · exact statusesKept_serve hserve
  · exact (statusesKept_serve hserve :)
  · have hassert : x ≠ .assertReset := by
      rintro rfl
      exact hreset (by rw [ha, List.head?_cons])
    exact statusesKept_of_map_eq (step_status_of_host_input ha h hassert hx)

/-- How a command ends: with OK and STATUS as it was, or with an error's response and its bit (R68, R144). -/
theorem effect_ends (cfg : Config) (t : Table) (draw : Nat) (i : Instr) (e : Engine) :
    (∃ d, (effect cfg t draw i e).rsp = e.rsp ++ [⟨.ok, d⟩] ∧ (effect cfg t draw i e).status = e.status) ∨
      ∃ err : Err, (effect cfg t draw i e).rsp = e.rsp ++ [⟨err.code, 0#64⟩] ∧
        (effect cfg t draw i e).status = setStatus e.status err := by
  cases i with
  | init => exact .inl ⟨_, rfl, rfl⟩
  | updb x => exact .inl ⟨_, rfl, rfl⟩
  | updr off len =>
    simp only [effect, updrEngine]
    split
    · exact .inl ⟨_, rfl, rfl⟩
    · exact .inr ⟨_, rfl, rfl⟩
  | value => exact .inl ⟨_, rfl, rfl⟩
  | tread index =>
    simp only [effect]
    split
    · exact .inl ⟨_, rfl, rfl⟩
    · exact .inr ⟨_, rfl, rfl⟩

/-- No error responds OK (R69). -/
theorem Err.code_ne_ok (err : Err) : err.code ≠ .ok := by cases err <;> decide

/-- A command that responds OK leaves STATUS. -/
theorem effect_status_of_ok {cfg : Config} {t : Table} {draw : Nat} {i : Instr} {e : Engine} {d : U64}
    (h : (effect cfg t draw i e).rsp = e.rsp ++ [⟨.ok, d⟩]) : (effect cfg t draw i e).status = e.status := by
  obtain ⟨_, -, hstatus⟩ | ⟨err, hrsp, -⟩ := effect_ends cfg t draw i e
  · exact hstatus
  · have hresponse : (⟨err.code, 0#64⟩ : Response) = ⟨.ok, d⟩ := by simpa using hrsp.symm.trans h
    exact absurd (congrArg Response.code hresponse) err.code_ne_ok

/-- Setting a bit that is 1 changes nothing. -/
theorem or_twoPow_of_getLsbD {st : Word} {n : Nat} (h : st.getLsbD n = true) : st ||| BitVec.twoPow 32 n = st := by
  refine BitVec.eq_of_getLsbD_eq fun i _ => ?_
  rw [BitVec.getLsbD_or, BitVec.getLsbD_twoPow]
  by_cases hi : n = i
  · subst hi
    rw [h, Bool.true_or]
  · simp [hi]

/-- Settles O36: the steps, the commands that succeed, a bit set twice, and the host's inputs. -/
theorem statusBitsAreSticky : Obligations.StatusBitsAreSticky := by
  refine ⟨fun s t h hreset => statusesKept_step h hreset, fun i s t e e' d h he he' hrsp => ?_,
    fun st => ⟨fun h => or_twoPow_of_getLsbD (n := 0) h, fun h => or_twoPow_of_getLsbD (n := 1) h⟩,
    fun s t x rest => step_status_of_host_input⟩
  obtain ⟨u, hu, -, heu⟩ := exec_engine i he
  obtain rfl : t = u := by simpa using h.symm.trans hu
  obtain rfl := Option.some.inj (heu.symm.trans he')
  exact effect_status_of_ok hrsp

/-! ### Commands on different engines commute (R26, R54) -/

/-- Where no host write races, an effect does not depend on the counter. -/
theorem effect_draw_of_no_racing (cfg : Config) (t : Table) (draw draw' : Nat) (i : Instr) {e : Engine}
    (h : e.src.racing = []) : effect cfg t draw i e = effect cfg t draw' i e := by
  cases i with
  | updr off len => simp only [effect, updrEngine, srcRead_of_no_racing _ _ h]
  | _ => rfl

/-- A command on the engine of a given number. -/
theorem exec_on (i : Instr) {s : State} {k : Nat} {e : Engine} (he : s.engines[k]? = some e) :
    exec i { s with cur := k } = .next { s with
      cur := k
      engines := s.engines.set k (effect s.cfg s.tbl s.draws i e)
      draws := s.draws + drawStep i } :=
  exec_some (s := { s with cur := k }) i he

/-- Settles O44: each command replaces its own engine, by one that does not depend on the counter. -/
theorem enginesDoNotInterfere : Obligations.EnginesDoNotInterfere := by
  intro s j k ej ek a b hjk hj hk hrj hrk
  have hk' : (s.engines.set j (effect s.cfg s.tbl s.draws a ej))[k]? = some ek := by rwa [List.getElem?_set_ne hjk]
  have hj' : (s.engines.set k (effect s.cfg s.tbl s.draws b ek))[j]? = some ej := by rwa [List.getElem?_set_ne hjk.symm]
  refine ⟨_, _, _, _, exec_on a hj, exec_on b hk', exec_on b hk, exec_on a hj', ?_, rfl, Nat.add_right_comm ..⟩
  dsimp only
  rw [effect_draw_of_no_racing s.cfg s.tbl (s.draws + drawStep a) s.draws b hrk,
    effect_draw_of_no_racing s.cfg s.tbl (s.draws + drawStep b) s.draws a hrj, List.set_comm _ _ hjk]

end Sys2Proof.Machine
end

section
/-! PROOF. The obligations of the memory (spec/20_memory.md): what UPDR reads and leaves of the source buffer, what a host
does to it, and the step as one atomic command. -/

namespace Sys2Proof.Machine

/-! ### The buffer under the host's writes (R42, R51) -/

/-- A write leaves every other index, whether the buffer has the written one or not. -/
theorem Src.read_write_of_ne (src : Src) {i j : Nat} (b : Byte) (h : Memory.wf src.mem) (hj : j ≠ i) :
    Memory.read (src.write i b).mem j = Memory.read src.mem j := by
  unfold Src.write
  split
  · rw [Memory.read_write _ _ _ _ h, if_neg hj]
  · rfl

/-- After a run of writes an index reads as the last byte written there, and as before where none was; an index that is
written must be one the buffer has. -/
theorem Src.read_foldl_write (ws : List Host.Cell) (src : Src) (i : Nat) (h : Memory.wf src.mem)
    (hi : ∀ b, (i, b) ∈ ws → i < src.len) :
    Memory.read (ws.foldl (fun s c => s.write c.1 c.2) src).mem i =
      (ws.reverse.find? fun c => c.1 == i).elim (Memory.read src.mem i) Prod.snd := by
  induction ws using List.reverseRecOn with
  | nil => rfl
  | append_singleton ws w ih =>
    have hwf := (Src.foldl_write_wf ws src h).1
    rw [List.foldl_append, List.foldl_cons, List.foldl_nil, List.reverse_concat]
    by_cases hw : w.1 = i
    · subst hw
      have hlen : w.1 < (ws.foldl (fun s c => s.write c.1 c.2) src).len := by
        rw [Src.foldl_write_len]
        exact hi w.2 (by simp)
      rw [Src.read_write _ _ _ _ hwf hlen, if_pos rfl, List.find?_cons_of_pos (by simp), Option.elim_some]
    · rw [Src.read_write_of_ne _ _ hwf (Ne.symm hw), List.find?_cons_of_neg (by simpa using hw)]
      exact ih fun b hb => hi b (List.mem_append_left _ hb)

/-- After an UPDR an index of the buffer holds the last byte the host wrote there meanwhile, or what it held (R55). -/
theorem Src.read_settle (src : Src) (i : Nat) (h : Memory.wf src.mem) (hi : ∀ b, (i, b) ∈ src.racing → i < src.len) :
    Memory.read src.settle.mem i =
      (src.racing.reverse.find? fun c => c.1 == i).elim (Memory.read src.mem i) Prod.snd :=
  Src.read_foldl_write src.racing src i h hi

/-- An index that no racing write names keeps its byte. -/
theorem Src.read_settle_of_not_raced (src : Src) (i : Nat) (h : Memory.wf src.mem) (hi : ∀ b, (i, b) ∉ src.racing) :
    Memory.read src.settle.mem i = Memory.read src.mem i := by
  have hnone : (src.racing.reverse.find? fun c => c.1 == i) = none := by
    rw [List.find?_eq_none]
    rintro ⟨a, b⟩ hc hai
    obtain rfl : a = i := by simpa using hai
    exact hi b (List.mem_reverse.mp hc)
  rw [Src.read_settle src i h fun b hb => absurd hb (hi b), hnone, Option.elim_none]

/-- An index that a racing write names reads as the free byte (R55). -/
theorem srcRead_of_raced (draw : Nat) {src : Src} {i : Nat} (h : ∃ b, (i, b) ∈ src.racing) :
    srcRead draw src i = Config.freeByte draw i :=
  if_pos ((Src.races_iff src i).mpr h)

/-- Every other index reads as the buffer's byte (R42). -/
theorem srcRead_of_not_raced (draw : Nat) {src : Src} {i : Nat} (h : ∀ b, (i, b) ∉ src.racing) :
    srcRead draw src i = Memory.read src.mem i :=
  if_neg fun hraces => not_exists.mpr h ((Src.races_iff src i).mp hraces)

/-- A bound buffer reads byte by byte as what was bound (R42). -/
theorem srcRead_bind (draw i : Nat) (bytes : List Byte) (hi : i < bytes.length) :
    srcRead draw (Src.bind bytes) i = bytes[i] := by
  rw [srcRead_of_no_racing draw _ (Src.bind_racing bytes)]
  simpa [Src.bind] using Memory.read_ofBytes 0 i bytes hi

/-- Settles O26: an index is raced or not, and the racing writes land in their order. -/
theorem racedBytesAreFree : Obligations.RacedBytesAreFree := by
  intro draw src i hwf hi
  refine ⟨srcRead_of_raced draw, srcRead_of_not_raced draw, Src.settle_racing src, Src.settle_len src, ?_⟩
  rw [Src.read_settle src i hwf fun _ _ => hi]
  cases src.racing.reverse.find? fun c => c.1 == i <;> rfl

/-! ### What UPDR reads (R42) -/

/-- The loop of FOLD_UNTIL_FAULT depends only on what the indices of the buffer read as (R108). -/
theorem foldUntil_congr (t : Table) {rd rd' : Nat → Byte} {n : Nat} (h : ∀ i < n, rd i = rd' i) (count : Nat) (i : Int)
    (c : U64) : foldUntil t rd n count i c = foldUntil t rd' n count i c := by
  induction count generalizing i c with
  | zero => rfl
  | succ count ih =>
    by_cases hout : i < 0 ∨ (n : Int) ≤ i
    · rw [foldUntil_outside _ _ _ _ _ _ hout, foldUntil_outside _ _ _ _ _ _ hout]
    · rw [foldUntil, foldUntil, if_neg hout, if_neg hout, h i.toNat (by omega), ih]

/-- Settles O25: a valid range lies in the buffer, and the loop stops at the first index outside it. -/
theorem updrReadsOnlyTheBuffer : Obligations.UpdrReadsOnlyTheBuffer := by
  intro policy t rd rd' n off len c h
  cases policy with
  | checkFirst =>
    simp only [updateRange]
    split
    · rename_i hvalid
      obtain ⟨hoff, hlen, hend⟩ := of_decide_eq_true hvalid
      rw [bytesFrom_congr rd rd' _ _ fun i _ hi => h i (by omega)]
    · rfl
  | foldUntilFault => exact foldUntil_congr t h len.toNat off c

/-! ### The frame of UPDR (R44, R103, R141) -/

/-- STATUS after UPDR: as before, or with ERR_RANGE set (R141). -/
theorem updrEngine_status (policy : RangePolicy) (t : Table) (draw : Nat) (off len : Int) (e : Engine) :
    (updrEngine policy t draw off len e).status = e.status ∨
      (updrEngine policy t draw off len e).status = setStatus e.status .rangeError := by
  simp only [updrEngine]
  split
  · exact .inl rfl
  · exact .inr rfl

/-- Of STATUS, UPDR changes no bit but ERR_RANGE (R23, R141). -/
theorem updrEngine_status_frame (policy : RangePolicy) (t : Table) (draw : Nat) (off len : Int) (e : Engine) :
    errIllegal (updrEngine policy t draw off len e).status = errIllegal e.status ∧
      statusReserved (updrEngine policy t draw off len e).status = statusReserved e.status := by
  obtain h | h := updrEngine_status policy t draw off len e
  · rw [h]
    exact ⟨rfl, rfl⟩
  · rw [h, errIllegal_setStatus, statusReserved_setStatus]
    exact ⟨Bool.or_false _, rfl⟩

/-- Settles O23: UPDR replaces its own engine, whose buffer settles and of whose STATUS only ERR_RANGE may change. -/
theorem frameOfUpdr : Obligations.FrameOfUpdr := by
  intro off len s t e h he hwf
  obtain ⟨e₀, he₀, rfl⟩ := exec_next h
  obtain rfl : e = e₀ := Option.some.inj (he.symm.trans he₀)
  have hsrc : (effect s.cfg s.tbl s.draws (.updr off len) e).src = e.src.settle := updrEngine_src ..
  obtain ⟨hillegal, hreserved⟩ := updrEngine_status_frame s.cfg.rangePolicy s.tbl s.draws off len e
  refine ⟨_, State.setEngine_self _ he, fun k hk => State.setEngineAt_other _ _ hk, List.length_set, rfl, rfl, rfl, rfl,
    rfl, effect_accepted .., effect_port .., ?_, fun a ha => ?_, hillegal, hreserved, hsrc, rfl⟩
  · rw [hsrc, Src.settle_len]
  · rw [hsrc, Src.read_settle_of_not_raced _ _ hwf ha]

/-! ### A host binds and writes the buffer (R42, R51) -/

section HostWrites
variable {s : State} {k : Nat} {e : Engine} {rest : List Input}

/-- A binding of an allowed length replaces the engine's buffer. -/
theorem step_bindSrc {bytes : List Byte} (ha : s.agenda = .bindSrc k bytes :: rest) (he : s.engines[k]? = some e)
    (hlen : bytes.length ≤ s.cfg.srcLenMax) :
    step s = .next (State.setEngineAt { s with agenda := rest } k { e with src := Src.bind bytes }) := by
  rw [step_of_input ha nofun]
  exact (if_pos hlen).trans (State.onEngineAt_some _ he)

/-- A longer binding is refused (log 16). -/
theorem step_bindSrc_tooLong {bytes : List Byte} (ha : s.agenda = .bindSrc k bytes :: rest)
    (hlen : s.cfg.srcLenMax < bytes.length) : step s = .refused .srcTooLong := by
  rw [step_of_input ha nofun]
  exact if_neg (Nat.not_le.mpr hlen)

/-- A host's write changes the engine's buffer alone. -/
theorem step_writeSrc {index : Nat} {b : Byte} (ha : s.agenda = .writeSrc k index b :: rest)
    (he : s.engines[k]? = some e) :
    step s = .next (State.setEngineAt { s with agenda := rest } k { e with src := e.src.write index b }) := by
  rw [step_of_input ha nofun]
  exact State.onEngineAt_some _ he

end HostWrites

/-- Settles O45: the step binds the buffer or refuses it, and a bound buffer reads back. -/
theorem bindingMakesTheBuffer : Obligations.BindingMakesTheBuffer := by
  intro s k e bytes rest ha he
  refine ⟨fun hlen => ?_, step_bindSrc_tooLong ha⟩
  exact ⟨_, _, step_bindSrc ha he hlen, State.setEngineAt_self _ he, rfl, rfl, Src.bind_len bytes, Src.bind_racing bytes,
    fun draw i hi => srcRead_bind draw i bytes hi⟩

/-- Settles O46: the step writes the engine's buffer, and a write is read at its index only. -/
theorem sourceWriteChangesOneByte : Obligations.SourceWriteChangesOneByte := by
  intro s k e index b rest ha he hwf hindex
  refine ⟨_, _, step_writeSrc ha he, State.setEngineAt_self _ he, Src.write_len .., ?_,
    fun i hi => Src.read_write_of_ne e.src b hwf hi⟩
  rw [Src.read_write e.src index index b hwf hindex, if_pos rfl]

/-! ### A step runs the decoded command (R50, R60) -/

/-- Settles O39: the engine awaits its stream, served already or by the agenda. -/
theorem stepRunsTheDecodedCommand : Obligations.StepRunsTheDecodedCommand := by
  intro s e i rest k more hready he hd
  refine ⟨fun hagenda hcur => ?_, fun hagenda => ?_⟩
  · subst hcur
    have hawaits : s.awaits s e (e.accepted ++ e.port) := ⟨.inl ⟨hagenda, rfl⟩, hready, he, rfl⟩
    exact step_of_command hawaits hd
  · have hk : k < s.engines.length := (List.getElem?_eq_some_iff.mp he).1
    have hawaits : s.awaits { s with agenda := more, cur := k } e (e.accepted ++ e.port) :=
      ⟨.inr ⟨k, more, hagenda, hk, rfl⟩, hready, he, rfl⟩
    exact step_of_command hawaits hd

end Sys2Proof.Machine
end

section
/-! PROOF. The obligations of the encoding (spec/30_encoding.md): the decoder and the encoder, the responses and ports, and
the assembler's lines. -/

namespace Sys2Proof

/-! ### Decoding an encoding (R61, R63, R64) -/

/-- Settles O6: the fields of a command word read back, and an operand in range is that of its word. -/
theorem decodeOfEncode : Obligations.DecodeOfEncode := by
  intro cfg i rest hwf htread
  cases i with
  | init => simp [encode, decode_one, decodeComplete, readCommand_eq, withoutImmediate]
  | updb x => simp [encode, decode_one, decodeComplete, readCommand_eq]
  | updr off len =>
    obtain ⟨hoff, hlen⟩ := Bool.and_eq_true_iff.mp hwf
    have hdecode := decode_updr cfg (s32Word off) (s32Word len) rest
    rwa [operandInt_s32Word _ _ hoff, operandInt_s32Word _ _ hlen] at hdecode
  | value => simp [encode, decode_one, decodeComplete, readCommand_eq, withoutImmediate]
  | tread index => simp [encode, decode_one, decodeComplete, readCommand_eq, htread index rfl]

/-! ### What is decoded (R62, R64) -/

/-- A command without an immediate is read only where IMM8 is 0. -/
theorem withoutImmediate_ok {cw : Word} {i j : Instr} (h : withoutImmediate cw j = .ok i) :
    i = j ∧ fieldImm8 cw = 0#8 := by
  unfold withoutImmediate at h
  split at h
  · exact ⟨(Except.ok.inj h).symm, ‹_›⟩
  · cases h

/-- A stream with a word is incomplete, or begins with a complete command, whose words are one, or three for OP 0x3. -/
theorem decode_cons (cfg : Config) (cw : Word) (tail : List Word) :
    (decode cfg (cw :: tail) = .incomplete ∧ fieldOp cw = 0x3#4 ∧ tail.length < 2) ∨
      (∃ o l rest, fieldOp cw = 0x3#4 ∧ tail = o :: l :: rest ∧
        decode cfg (cw :: tail) = decodeComplete cfg cw o l rest) ∨
      (fieldOp cw ≠ 0x3#4 ∧ decode cfg (cw :: tail) = decodeComplete cfg cw 0#32 0#32 tail) := by
  by_cases hop : fieldOp cw = 0x3#4
  · match tail with
    | [] | [_] => exact .inl ⟨(decode_incomplete_iff ..).mpr (.inr ⟨cw, _, rfl, hop, by simp⟩), hop, by simp⟩
    | o :: l :: rest => exact .inr (.inl ⟨o, l, rest, hop, rfl, decode_three cfg cw o l rest hop⟩)
  · exact .inr (.inr ⟨hop, decode_one cfg cw tail hop⟩)

/-- A complete command that is legal leaves the words after it. -/
theorem decodeComplete_command {cfg : Config} {cw o l : Word} {rest rest' : List Word} {i : Instr}
    (h : decodeComplete cfg cw o l rest = .command i rest') : readCommand cfg cw o l = .ok i ∧ rest' = rest := by
  unfold decodeComplete at h
  split at h
  · obtain ⟨rfl, rfl⟩ := Decoded.command.inj h
    exact ⟨‹_›, rfl⟩
  · cases h

/-- A complete command that is illegal leaves the words after it. -/
theorem decodeComplete_illegal {cfg : Config} {cw o l : Word} {rest rest' : List Word} {why : IllegalReason}
    (h : decodeComplete cfg cw o l rest = .illegal why rest') : rest' = rest := by
  unfold decodeComplete at h
  split at h
  · cases h
  · exact (Decoded.illegal.inj h).2.symm

/-- The words that are read as a command: UPDR's, with its operand words, or the encoding of the command (R64). -/
theorem readCommand_ok {cfg : Config} {cw o l : Word} {i : Instr} (h : readCommand cfg cw o l = .ok i) :
    (cw = commandWord 0x3#4 0#8 ∧ i = .updr (operandInt cfg.idxW o) (operandInt cfg.idxW l)) ∨
      (fieldOp cw ≠ 0x3#4 ∧ encode i = [cw] ∧ ∀ x, i = .tread x → cfg.hasTread = true) := by
  by_cases hz : fieldZ1 cw ≠ 0#16 ∨ fieldZ0 cw ≠ 0#4
  · rw [readCommand_reserved cfg cw o l hz] at h
    cases h
  · obtain ⟨hz1, hz0⟩ : fieldZ1 cw = 0#16 ∧ fieldZ0 cw = 0#4 := by simpa using hz
    have hcw := eq_commandWord cw hz1 hz0
    rw [readCommand_eq cfg cw o l hz1 hz0] at h
    split_ifs at h with h0 h1 h2 h3 h4 h5 htread
    · obtain ⟨rfl, himm⟩ := withoutImmediate_ok h
      rw [h1, himm] at hcw
      exact .inr ⟨by simp [h1], by rw [hcw]; rfl, nofun⟩
    · obtain rfl := Except.ok.inj h
      rw [h2] at hcw
      exact .inr ⟨by simp [h2], congrArg (· :: []) hcw.symm, nofun⟩
    · obtain ⟨rfl, himm⟩ := withoutImmediate_ok h
      rw [h3, himm] at hcw
      exact .inl ⟨hcw, rfl⟩
    · obtain ⟨rfl, himm⟩ := withoutImmediate_ok h
      rw [h4, himm] at hcw
      exact .inr ⟨by simp [h4], by rw [hcw]; rfl, nofun⟩
    · obtain rfl := Except.ok.inj h
      rw [h5] at hcw
      exact .inr ⟨by simp [h5], congrArg (· :: []) hcw.symm, fun _ _ => htread⟩

/-- The streams that decode to a command: an UPDR word with two operand words, or the encoding of another command. -/
theorem decode_command {cfg : Config} {ws rest : List Word} {i : Instr} (h : decode cfg ws = .command i rest) :
    (∃ o l, ws = commandWord 0x3#4 0#8 :: o :: l :: rest ∧
        i = .updr (operandInt cfg.idxW o) (operandInt cfg.idxW l)) ∨
      ((∀ off len, i ≠ .updr off len) ∧ ws = encode i ++ rest ∧ ∀ x, i = .tread x → cfg.hasTread = true) := by
  cases ws with
  | nil => cases h
  | cons cw tail =>
    obtain ⟨hd, -⟩ | ⟨o, l, rest', hop, rfl, hd⟩ | ⟨hop, hd⟩ := decode_cons cfg cw tail
    · cases hd.symm.trans h
    · obtain ⟨hread, rfl⟩ := decodeComplete_command (hd.symm.trans h)
      obtain ⟨rfl, hi⟩ | ⟨hne, -⟩ := readCommand_ok hread
      · exact .inl ⟨o, l, rfl, hi⟩
      · exact absurd hop hne
    · obtain ⟨hread, rfl⟩ := decodeComplete_command (hd.symm.trans h)
      obtain ⟨rfl, -⟩ | ⟨-, henc, htread⟩ := readCommand_ok hread
      · exact absurd (fieldOp_commandWord ..) hop
      · refine .inr ⟨?_, by rw [henc]; rfl, htread⟩
        rintro off len rfl
        cases henc

/-- A command without operand words has an encoding. -/
theorem Instr.wf_of_not_updr (idxW : PNat) {i : Instr} (h : ∀ off len, i ≠ .updr off len) : i.wf idxW = true := by
  cases i with
  | updr off len => exact absurd rfl (h off len)
  | _ => rfl

/-- What is decoded has an encoding. -/
theorem wf_of_decode {cfg : Config} {ws rest : List Word} {i : Instr} (h : decode cfg ws = .command i rest) :
    i.wf cfg.idxW = true := by
  obtain ⟨o, l, -, rfl⟩ | ⟨hi, -⟩ := decode_command h
  · exact Bool.and_eq_true_iff.mpr ⟨fitsSigned_operandInt cfg.idxW o, fitsSigned_operandInt cfg.idxW l⟩
  · exact Instr.wf_of_not_updr cfg.idxW hi

/-- Settles O7: a decoded stream is UPDR's word with two operand words, or its command's encoding. -/
theorem encodeOfDecode : Obligations.EncodeOfDecode := by
  intro cfg ws rest i h
  have hwf := wf_of_decode h
  obtain ⟨o, l, rfl, rfl⟩ | ⟨hi, rfl, htread⟩ := decode_command h
  · refine ⟨hwf, decodeOfEncode cfg _ rest hwf nofun, fun hwide => ?_, fun _ _ _ => ⟨o, l, rfl⟩⟩
    obtain hwide | hne := hwide
    · simp [encode, operandInt_wide _ _ hwide, s32Word_s32]
    · exact absurd rfl (hne _ _)
  · exact ⟨hwf, h, fun _ => rfl, fun off len hupdr => absurd hupdr (hi off len)⟩

/-! ### The length (R62) -/

/-- A complete command, legal or not, leaves the words after its one or three. -/
theorem rest_of_decode (cfg : Config) (cw : Word) (tail : List Word) :
    (∀ i rest, decode cfg (cw :: tail) = .command i rest → rest = tail.drop (if fieldOp cw = 0x3#4 then 2 else 0)) ∧
      ∀ why rest, decode cfg (cw :: tail) = .illegal why rest →
        rest = tail.drop (if fieldOp cw = 0x3#4 then 2 else 0) := by
  obtain ⟨hd, -⟩ | ⟨o, l, rest, hop, rfl, hd⟩ | ⟨hop, hd⟩ := decode_cons cfg cw tail
  · rw [hd]
    exact ⟨nofun, nofun⟩
  · rw [hd, if_pos hop]
    exact ⟨fun _ _ h => (decodeComplete_command h).2, fun _ _ h => decodeComplete_illegal h⟩
  · rw [hd, if_neg hop]
    exact ⟨fun _ _ h => (decodeComplete_command h).2, fun _ _ h => decodeComplete_illegal h⟩

/-- Settles O3: a stream is incomplete, or a complete command of one of the two lengths. -/
theorem lengthIsDecidedByOp : Obligations.LengthIsDecidedByOp := by
  intro cfg cw tail
  have hincomplete : decode cfg (cw :: tail) = .incomplete ↔ fieldOp cw = 0x3#4 ∧ tail.length < 2 := by
    simp [decode_incomplete_iff]
  exact ⟨rfl, hincomplete, rest_of_decode cfg cw tail⟩

/-! ### Legality (R65, R66) -/

/-- As many operand words as OP says make a complete command. -/
theorem decode_of_length {cw : Word} {operands : List Word} (h : operands.length + 1 = commandLength cw) (cfg : Config)
    (rest : List Word) : ∃ o l, decode cfg (cw :: operands ++ rest) = decodeComplete cfg cw o l rest := by
  unfold commandLength at h
  split at h
  · rename_i hop
    obtain ⟨o, l, rfl⟩ := List.length_eq_two.mp (Nat.succ.inj h)
    exact ⟨o, l, decode_three cfg cw o l rest hop⟩
  · rename_i hop
    obtain rfl := List.length_eq_zero_iff.mp (Nat.succ.inj h)
    exact ⟨0#32, 0#32, decode_one cfg cw rest hop⟩

/-- A complete command whose word is legal decodes to a command (R65). -/
theorem decode_of_legal {cfg : Config} {cw : Word} {operands : List Word}
    (h : operands.length + 1 = commandLength cw) (hlegal : legal cfg.hasTread cw = true) (rest : List Word) :
    ∃ i, decode cfg (cw :: operands ++ rest) = .command i rest := by
  obtain ⟨o, l, hd⟩ := decode_of_length h cfg rest
  obtain ⟨i, hi⟩ := (readCommand_ok_iff cfg cw o l).mpr hlegal
  exact ⟨i, by rw [hd, decodeComplete, hi]⟩

/-- A complete command whose word is not legal decodes to an illegal command (R65, R66). -/
theorem decode_of_not_legal {cfg : Config} {cw : Word} {operands : List Word}
    (h : operands.length + 1 = commandLength cw) (hlegal : legal cfg.hasTread cw ≠ true) (rest : List Word) :
    ∃ why, decode cfg (cw :: operands ++ rest) = .illegal why rest := by
  obtain ⟨o, l, hd⟩ := decode_of_length h cfg rest
  cases hread : readCommand cfg cw o l with
  | ok i => exact absurd ((readCommand_ok_iff cfg cw o l).mp ⟨i, hread⟩) hlegal
  | error why => exact ⟨why, by rw [hd, decodeComplete, hread]⟩

/-- Settles O2: the condition is that of `legal`. -/
theorem decodeFollowsLegality : Obligations.DecodeFollowsLegality := by
  intro cfg cw operands rest h
  have hiff := legal_iff cfg.hasTread cw
  exact ⟨fun hl => decode_of_legal h (hiff.mpr hl) rest, fun hl => decode_of_not_legal h (mt hiff.mp hl) rest, hiff⟩

/-- Each cause of R66 makes a word illegal. -/
theorem not_legal_of_cause {hasTread : Bool} {cw : Word}
    (h : fieldOp cw = 0x0#4 ∨ 0x6#4 ≤ fieldOp cw ∨ (fieldOp cw = 0x5#4 ∧ hasTread = false) ∨ fieldZ0 cw ≠ 0#4 ∨
      fieldZ1 cw ≠ 0#16 ∨
      (fieldImm8 cw ≠ 0#8 ∧ (fieldOp cw = 0x1#4 ∨ fieldOp cw = 0x3#4 ∨ fieldOp cw = 0x4#4))) :
    legal hasTread cw ≠ true := by
  rw [Ne, legal_iff]
  rintro ⟨hz1, hz0, ⟨hop, himm⟩ | hop | ⟨hop, htread⟩⟩
  · obtain hop | hop | hop := hop <;> simp [hop, himm, hz0, hz1] at h
  · simp [hop, hz0, hz1] at h
  · simp [hop, htread, hz0, hz1] at h

/-- Settles O32: the word is not legal, and the engine that awaits it takes an illegal command. -/
theorem illegalWordsEndInIllegalCommand : Obligations.IllegalWordsEndInIllegalCommand := by
  intro s u e cw operands rest hawaits hlen hcause
  have hlength : operands.length + 1 = commandLength cw := by
    rw [hlen]
    exact apply_ite (· + 1) ..
  obtain ⟨why, hd⟩ := decode_of_not_legal (cfg := s.cfg) hlength (not_legal_of_cause hcause) rest
  exact Machine.step_of_illegal hawaits hd

/-! ### The opcode map (R64) -/

/-- A mask leaves a field that it covers. -/
theorem field_masked (cw : Word) {mask : Word} {start len : Nat}
    (h : mask.extractLsb' start len = BitVec.allOnes len) :
    (cw &&& mask).extractLsb' start len = cw.extractLsb' start len := by
  rw [BitVec.extractLsb'_and, h, BitVec.and_allOnes]

/-- A word that agrees with a command word outside IMM8 is the command word with its own IMM8. -/
theorem eq_commandWord_of_masked {cw : Word} {op : BitVec 4} (h : cw &&& 0xFFFF00FF#32 = commandWord op 0#8) :
    cw = commandWord op (fieldImm8 cw) := by
  have hop : fieldOp cw = fieldOp (commandWord op 0#8) := h ▸ (field_masked cw (by decide)).symm
  have hz0 : fieldZ0 cw = fieldZ0 (commandWord op 0#8) := h ▸ (field_masked cw (by decide)).symm
  have hz1 : fieldZ1 cw = fieldZ1 (commandWord op 0#8) := h ▸ (field_masked cw (by decide)).symm
  rw [fieldOp_commandWord] at hop
  rw [← hop]
  exact eq_commandWord cw (by simpa using hz1) (by simpa using hz0)

/-- A word that is equal to a pattern under the mask of every bit is the pattern. -/
theorem eq_of_masked_all {cw pattern : Word} (h : cw &&& 0xFFFFFFFF#32 = pattern) : cw = pattern := by
  rwa [show (0xFFFFFFFF#32 : Word) = BitVec.allOnes 32 by decide, BitVec.and_allOnes] at h

/-- An OP value that no command has makes an illegal command of one word (R64, R66). -/
theorem decode_of_unused_op (cfg : Config) {cw : Word} (h : fieldOp cw = 0x0#4 ∨ 0x6#4 ≤ fieldOp cw)
    (rest : List Word) : ∃ why, decode cfg (cw :: rest) = .illegal why rest := by
  have hop : fieldOp cw ≠ 0x3#4 := by
    intro hop
    rw [hop] at h
    exact absurd h (by decide)
  refine decode_of_not_legal (operands := []) (if_neg hop).symm (not_legal_of_cause ?_) rest
  exact h.imp_right .inl

/-- Settles O1: a word that matches is the first word of an encoding, and an encoding decodes to its command. -/
theorem opcodeMapDecodes : Obligations.OpcodeMapDecodes := by
  intro cfg cw o l rest
  refine ⟨fun h => ?_, fun h => ?_, fun h => ?_, fun h => ?_, fun h htread => ?_,
    fun h => decode_of_unused_op cfg h rest⟩
  · obtain rfl := eq_of_masked_all h
    exact decodeOfEncode cfg .init rest rfl nofun
  · have hd := decodeOfEncode cfg (.updb (fieldImm8 cw)) rest rfl nofun
    rwa [encode, ← eq_commandWord_of_masked h] at hd
  · obtain rfl := eq_of_masked_all h
    exact decode_updr cfg o l rest
  · obtain rfl := eq_of_masked_all h
    exact decodeOfEncode cfg .value rest rfl nofun
  · have hd := decodeOfEncode cfg (.tread (fieldImm8 cw)) rest rfl fun _ _ => htread
    rwa [encode, ← eq_commandWord_of_masked h] at hd

/-- Settles O8: the words are evaluated. -/
theorem writtenWordsDecode : Obligations.WrittenWordsDecode := by
  unfold Obligations.WrittenWordsDecode
  decide

/-! ### Operand words (R63) -/

/-- The integer of an operand word: its unsigned value, less 2^32 from 2^31 on. -/
theorem operandInt_32_eq_toNat (w : Word) :
    operandInt 32 w = if w.toNat < 2 ^ 31 then (w.toNat : Int) else (w.toNat : Int) - 2 ^ 32 := by
  rw [operandInt_32, s32, BitVec.toInt_eq_toNat_cond]
  have hsign : 2 * w.toNat < 2 ^ 32 ↔ w.toNat < 2 ^ 31 := by omega
  simp only [hsign]
  norm_cast

/-- Settles O4: with 32 bits an operand word and its integer determine each other. -/
theorem operandWordsAreS32 : Obligations.OperandWordsAreS32 := by
  refine ⟨operandInt_32_eq_toNat, fun v hlow hhigh => ?_, fun w => ?_, fun cfg word1 word2 rest hwidth => ?_⟩
  · exact operandInt_s32Word 32 v (decide_eq_true ⟨hlow, hhigh⟩)
  · rw [operandInt_32, s32Word_s32]
  · rw [decode_updr, hwidth]

/-! ### Command words as numbers (R61, R71) -/

/-- A command word is its fields at their places (R61). -/
theorem commandWord_eq_or (op : BitVec 4) (imm8 : Byte) :
    commandWord op imm8 = op.setWidth 32 ||| (imm8.setWidth 32 <<< 8) := by
  refine BitVec.eq_of_getLsbD_eq fun i hi => ?_
  rw [commandWord_bit, BitVec.getLsbD_or, BitVec.getLsbD_shiftLeft, BitVec.getLsbD_setWidth, BitVec.getLsbD_setWidth]
  by_cases h4 : i < 4
  · simp [h4, hi, show i < 8 by omega]
  · have hop : op.getLsbD i = false := BitVec.getLsbD_of_ge op i (by omega)
    by_cases h8 : i < 8
    · simp [h4, h8, hop]
    · by_cases h16 : i < 16
      · simp [h4, h8, h16, hop, hi, show i - 8 < 32 by omega]
      · have himm : imm8.getLsbD (i - 8) = false := BitVec.getLsbD_of_ge imm8 _ (by omega)
        simp [h4, h8, h16, hop, himm]

end Sys2Proof

namespace Sys2Proof.Machine

/-! ### Responses (R60, R68, R69) -/

/-- Settles O9: the three codes, one by one. -/
theorem responseCodes : Obligations.ResponseCodes := by
  refine ⟨rfl, rfl, rfl, rfl, fun c => ?_, fun c => ?_⟩
  · cases c <;> rfl
  · cases c <;> decide

/-- The data of a command's response (R68): what the command answers, and 0 for one that answers nothing and for an
error. -/
def responseData (cfg : Config) (t : Table) (e : Engine) : Instr → U64
  | .init => 0#64
  | .updb _ => 0#64
  | .updr _ _ => 0#64
  | .value => ~~~e.crc
  | .tread index => if cfg.hasTread then t.entry index else 0#64

/-- A command delivers one response behind the earlier ones (R60, R68). -/
theorem effect_rsp (cfg : Config) (t : Table) (draw : Nat) (i : Instr) (e : Engine) :
    ∃ code, (effect cfg t draw i e).rsp = e.rsp ++ [⟨code, responseData cfg t e i⟩] := by
  cases i with
  | init => exact ⟨.ok, rfl⟩
  | updb x => exact ⟨.ok, rfl⟩
  | updr off len =>
    simp only [effect, updrEngine]
    split
    · exact ⟨.ok, rfl⟩
    · exact ⟨.range, rfl⟩
  | value => exact ⟨.ok, rfl⟩
  | tread index =>
    simp only [effect, responseData]
    split
    · exact ⟨.ok, rfl⟩
    · exact ⟨.illegal, rfl⟩

/-- Settles O35: the command's effect delivers its response, and one with OK leaves STATUS. -/
theorem oneResponsePerCommand : Obligations.OneResponsePerCommand := by
  intro i s e he
  obtain ⟨t, ht, -, het⟩ := exec_engine i he
  obtain ⟨code, hrsp⟩ := effect_rsp s.cfg s.tbl s.draws i e
  refine ⟨t, _, _, ht, het, hrsp, ?_, ?_⟩
  · rintro rfl
    exact effect_status_of_ok hrsp
  · cases i <;> rfl

/-! ### The ports (R26, R55, R60) -/

/-- A step whose input is a change of one engine makes that change. -/
theorem step_of_engine_input {s : State} {k : Nat} {e : Engine} {x : Input} {rest : List Input} {f : Engine → Engine}
    (he : s.engines[k]? = some e) (ha : s.agenda = x :: rest) (hx : ∀ j, x ≠ .serve j)
    (hf : State.accept { s with agenda := rest } x = State.onEngineAt { s with agenda := rest } k f) :
    step s = .next { s with agenda := rest, engines := s.engines.set k (f e) } := by
  rw [step_of_input ha hx, hf]
  exact State.onEngineAt_some f he

/-- Settles O47: each of the three inputs is a change of its engine. -/
theorem portInputsChangeOnlyTheirPort : Obligations.PortInputsChangeOnlyTheirPort := by
  intro s k e rest he
  refine ⟨fun ws ha => ?_, fun ha => ?_, fun index b ha => ?_⟩
  · exact step_of_engine_input he ha nofun rfl
  · rw [step_of_engine_input he ha nofun rfl, Engine.takeResponse, List.drop_one]
  · exact step_of_engine_input he ha nofun rfl

/-! ### The assembler's lines (R71, R72) -/

/-- Settles O53: a line is issued where its command is well formed. -/
theorem assemblyLinesGiveTheirWords : Obligations.AssemblyLinesGiveTheirWords := by
  refine ⟨fun k n i => ⟨fun h => ?_, fun h => ?_⟩, by decide, by decide, fun b => ?_, fun b => ?_, fun _ _ => rfl⟩
  · simp [assembleLine, issueCommand, issue, h]
  · simp [assembleLine, issueCommand, h]
  · exact congrArg (· :: []) (commandWord_eq_or 0x2#4 b)
  · exact congrArg (· :: []) (commandWord_eq_or 0x5#4 b)

/-- One UPDB line for each byte assembles to one UPDB for each byte. -/
theorem assembleFrom_updb (k : Nat) (last : Option Nat) (text : List Byte) :
    assembleFrom k last (text.map fun c => .command (.updb c)) =
      some ((Instr.updStr text).flatMap fun i => issue k (encode i)) := by
  induction text with
  | nil => rfl
  | cons c text ih =>
    rw [List.map_cons, assembleFrom]
    simp [assembleLine, issueCommand, Instr.wf, ih, Instr.updStr]

/-- A run of UPDB folds its bytes in order (R104). -/
theorem runCommands_updb (bytes : List Byte) (s : State) (e : Engine) (he : s.engines[s.cur]? = some e) :
    ∃ u e', runCommands (bytes.map .updb) s = .next u ∧ u.engines[s.cur]? = some e' ∧
      e'.crc = foldSeq s.tbl e.crc bytes := by
  induction bytes generalizing s e with
  | nil => exact ⟨s, e, rfl, he, rfl⟩
  | cons x bytes ih =>
    obtain ⟨u, e', hrun, hu, hcrc⟩ := ih _ _ (State.setEngine_self (effect s.cfg s.tbl s.draws (.updb x) e) he)
    refine ⟨u, e', ?_, hu, hcrc⟩
    rw [List.map_cons, runCommands, exec_some (.updb x) he]
    exact hrun

/-- Settles O54: the expansions, and the two folds of the same bytes. -/
theorem updAllEqualsUpdStr : Obligations.UpdAllEqualsUpdStr := by
  refine ⟨fun _ _ _ => rfl, fun _ _ => rfl, fun k last text => ?_, fun s e bytes he hsrc => ?_⟩
  · rw [assembleFrom_updb]
    rfl
  · obtain ⟨t, hupdr, -, het⟩ := exec_engine (.updr 0 bytes.length) he
    obtain ⟨u, e'', hupdb, heu, hcrc⟩ := runCommands_updb bytes s e he
    have hfold : (effect s.cfg s.tbl s.draws (.updr 0 bytes.length) e).crc = foldSeq s.tbl e.crc bytes := by
      rw [effect, updrEngine_bind _ _ _ _ _ hsrc]
    exact ⟨t, u, _, e'', by rw [runCommands, hupdr]; rfl, hupdb, het, heu, hfold.trans hcrc.symm, hfold⟩

end Sys2Proof.Machine
end

section
/-! PROOF. The obligations of the table generator (spec/40_table_generator.md): an iteration, the entries of the table,
their linearity, that nothing else writes T, and TREAD. -/

namespace Sys2Proof.Machine

/-! ### One iteration (R80) -/

/-- Where the low bit is 0 an iteration only shifts. -/
theorem genStep_of_low_zero {poly r : U64} (h : r.getLsbD 0 = false) : genStep poly r = r >>> 1 :=
  if_neg (Bool.eq_false_iff.mp h)

/-- Where the low bit is 1 an iteration shifts and XORs POLY in. -/
theorem genStep_of_low_one {poly r : U64} (h : r.getLsbD 0 = true) : genStep poly r = (r >>> 1) ^^^ poly :=
  if_pos h

/-- A logical shift right by one moves every bit down by one, and a 0 into bit 63. -/
theorem getLsbD_shift_one (r : U64) (n : Nat) :
    (r >>> 1).getLsbD n = (decide (n < 63) && r.getLsbD (n + 1)) := by
  rw [BitVec.getLsbD_ushiftRight, Nat.add_comm]
  by_cases hn : n < 63
  · simp [hn]
  · simp [hn, BitVec.getLsbD_of_ge r (n + 1) (by omega)]

/-- An iteration, bit by bit. -/
theorem getLsbD_genStep (poly r : U64) (n : Nat) :
    (genStep poly r).getLsbD n =
      ((decide (n < 63) && r.getLsbD (n + 1)) ^^ (r.getLsbD 0 && poly.getLsbD n)) := by
  rw [← getLsbD_shift_one]
  cases hlow : r.getLsbD 0 with
  | false => rw [genStep_of_low_zero hlow, Bool.false_and, Bool.xor_false]
  | true => rw [genStep_of_low_one hlow, BitVec.getLsbD_xor, Bool.true_and]

/-- A run of the generator iterates its step. -/
theorem genRun_eq_iterate (poly : U64) (k : Nat) (r : U64) : genRun poly k r = (genStep poly)^[k] r := by
  induction k generalizing r with
  | zero => rfl
  | succ k ih => rw [genRun, ih, Function.iterate_succ_apply]

/-- Settles O12: an iteration bit by bit, and an entry as a run of eight. -/
theorem generatorIteration : Obligations.GeneratorIteration :=
  ⟨fun poly r n _ => getLsbD_genStep poly r n, fun poly b => genRun_eq_iterate poly 8 (b.zeroExtend 64), genTable_entry⟩

/-! ### TREAD (R85) -/

/-- TREAD in a realisation that has it. -/
theorem exec_tread {s : State} {e : Engine} (i : Byte) (htread : s.cfg.hasTread = true)
    (he : s.engines[s.cur]? = some e) :
    exec (.tread i) s = .next (s.setEngine { e with rsp := e.rsp ++ [⟨.ok, s.tbl.entry i⟩] }) := by
  have heffect : effect s.cfg s.tbl s.draws (.tread i) e = e.respond .ok (s.tbl.entry i) := if_pos htread
  rw [exec_some _ he, heffect]
  rfl

/-- TREAD in a realisation that lacks it. -/
theorem exec_tread_absent {s : State} {e : Engine} (i : Byte) (htread : s.cfg.hasTread = false)
    (he : s.engines[s.cur]? = some e) :
    exec (.tread i) s = .next (s.setEngine
      { e with status := e.status ||| 2#32, rsp := e.rsp ++ [⟨.illegal, 0#64⟩] }) := by
  have heffect : effect s.cfg s.tbl s.draws (.tread i) e = e.raise .illegalCommand := if_neg (by simp [htread])
  rw [exec_some _ he, heffect]
  rfl

/-- A word of OP 0x5 is legal where the realisation has TREAD and the reserved fields are 0 (R65). -/
theorem legal_iff_of_op_tread {hasTread : Bool} {cw : Word} (hop : fieldOp cw = 0x5#4) :
    legal hasTread cw = true ↔ hasTread = true ∧ fieldZ1 cw = 0#16 ∧ fieldZ0 cw = 0#4 := by
  simpa [legal_iff, hop] using and_rotate.symm

/-- A legal word of OP 0x5 is TREAD of its IMM8. -/
theorem decode_tread {cfg : Config} {cw : Word} (hop : fieldOp cw = 0x5#4) (htread : cfg.hasTread = true)
    (hz1 : fieldZ1 cw = 0#16) (hz0 : fieldZ0 cw = 0#4) (rest : List Word) :
    decode cfg (cw :: rest) = .command (.tread (fieldImm8 cw)) rest := by
  have hcw : commandWord 0x5#4 (fieldImm8 cw) = cw := hop ▸ (eq_commandWord cw hz1 hz0).symm
  have hdecode := decodeOfEncode cfg (.tread (fieldImm8 cw)) rest rfl fun _ _ => htread
  rwa [encode, hcw] at hdecode

/-- Settles O21: the command with and without HAS_TREAD, and its word, which is legal or not. -/
theorem treadAnswersTheEntry : Obligations.TreadAnswersTheEntry := by
  refine ⟨fun _ _ => exec_tread, fun _ _ => exec_tread_absent, fun s u e cw rest hawaits hop => ⟨?_, fun hillegal => ?_⟩⟩
  · rintro ⟨htread, hz1, hz0⟩
    exact step_of_command hawaits (decode_tread hop htread hz1 hz0 rest)
  · have hone : fieldOp cw ≠ 0x3#4 := ne_of_eq_of_ne hop (by decide)
    have hnot := mt (legal_iff_of_op_tread hop).mp hillegal
    obtain ⟨why, hdecode⟩ := decode_of_not_legal (operands := []) (if_neg hone).symm hnot rest
    exact step_of_illegal hawaits hdecode

/-! ### The entries at 0x80 and 0x00 (R86, R87) -/

/-- An iteration moves a single bit down to the next. -/
theorem genStep_twoPow (poly : U64) {k : Nat} (h : k + 1 < 64) :
    genStep poly (BitVec.twoPow 64 (k + 1)) = BitVec.twoPow 64 k := by
  refine BitVec.eq_of_getLsbD_eq fun i _ => ?_
  rw [getLsbD_genStep]
  simp only [BitVec.getLsbD_twoPow]
  by_cases hi : k = i
  · subst hi
    simp [h, show k < 63 by omega, show k < 64 by omega]
  · simp [hi]

/-- `k` iterations bring bit `k` down to bit 0. -/
theorem genRun_twoPow (poly : U64) {k : Nat} (h : k < 64) : genRun poly k (BitVec.twoPow 64 k) = 1#64 := by
  induction k with
  | zero => rfl
  | succ k ih => rw [genRun, genStep_twoPow poly h, ih (by omega)]

/-- An iteration from 1 leaves POLY. -/
theorem genStep_one (poly : U64) : genStep poly 1#64 = poly := by
  rw [genStep_of_low_one (by decide), show (1#64 >>> 1 : U64) = 0#64 by decide, BitVec.zero_xor]

/-- T[0x80] is POLY (R86). -/
theorem gen_0x80 (poly : U64) : gen poly 0x80#8 = poly := by
  have hseven : genRun poly 7 (BitVec.setWidth 64 0x80#8) = 1#64 := genRun_twoPow poly (k := 7) (by decide)
  rw [gen, genIter, genRun_succ, hseven, genStep_one]

/-- Every iteration leaves 0 (R87). -/
theorem genRun_zero (poly : U64) (k : Nat) : genRun poly k 0#64 = 0#64 := by
  induction k with
  | zero => rfl
  | succ k ih => rw [genRun, genStep_of_low_zero (by decide), BitVec.zero_ushiftRight, ih]

/-- Settles O10: bit 7 comes down to bit 0 in seven iterations and the eighth leaves POLY; 0 stays 0; and TREAD answers
the entry. -/
theorem tableHoldsPolyAndZero : Obligations.TableHoldsPolyAndZero := by
  refine ⟨fun poly => ⟨?_, genRun_twoPow poly (k := 7) (by decide), ?_, genRun_zero poly⟩,
    fun s e he htbl htread => ?_⟩
  · rw [genTable_entry, gen_0x80]
  · rw [genTable_entry]
    exact genRun_zero poly genIter
  · rw [exec_tread 0x80#8 htread he, htbl, genTable_entry, gen_0x80]

/-! ### Linearity (R88) -/

/-- An entry of the XOR of two bytes is the XOR of their entries. -/
theorem gen_xor (poly : U64) (a b : Byte) : gen poly (a ^^^ b) = gen poly a ^^^ gen poly b := by
  simp only [gen, BitVec.setWidth_xor, genRun_xor]

section Linear
variable {t t' : Table}

/-- A linear table holds 0 at 0. -/
theorem entry_zero_of_linear (h : ∀ a b : Byte, t.entry (a ^^^ b) = t.entry a ^^^ t.entry b) : t.entry 0#8 = 0#64 := by
  rw [← BitVec.xor_self (x := 0#8), h, BitVec.xor_self]

/-- Linear tables that agree at the powers of two agree at every byte whose bits from `n` on are 0. -/
theorem entry_eq_of_high_zero (h : ∀ a b : Byte, t.entry (a ^^^ b) = t.entry a ^^^ t.entry b)
    (h' : ∀ a b : Byte, t'.entry (a ^^^ b) = t'.entry a ^^^ t'.entry b)
    (hpow : ∀ k < 8, t.entry (1#8 <<< k) = t'.entry (1#8 <<< k)) (n : Nat) (hn : n ≤ 8) (b : Byte)
    (hb : ∀ i, n ≤ i → b.getLsbD i = false) : t.entry b = t'.entry b := by
  induction n generalizing b with
  | zero =>
    obtain rfl : b = 0#8 := BitVec.eq_of_getLsbD_eq fun i _ => by rw [hb i i.zero_le, BitVec.getLsbD_zero]
    rw [entry_zero_of_linear h, entry_zero_of_linear h']
  | succ n ih =>
    cases hbit : b.getLsbD n with
    | false =>
      refine ih (by omega) b fun i hi => ?_
      obtain rfl | hlt := Nat.eq_or_lt_of_le hi
      · exact hbit
      · exact hb i hlt
    | true =>
      have hlower : t.entry (b ^^^ 1#8 <<< n) = t'.entry (b ^^^ 1#8 <<< n) := by
        refine ih (by omega) _ fun i hi => ?_
        rw [BitVec.getLsbD_xor, ← BitVec.twoPow_eq, BitVec.getLsbD_twoPow]
        obtain rfl | hlt := Nat.eq_or_lt_of_le hi
        · simp [hbit, show n < 8 by omega]
        · simp [hb i hlt, hlt.ne]
      have hsplit : b = (b ^^^ 1#8 <<< n) ^^^ 1#8 <<< n := by rw [BitVec.xor_assoc, BitVec.xor_self, BitVec.xor_zero]
      rw [hsplit, h, h', hlower, hpow n hn]

end Linear

/-- Settles O11: the generator is linear, a byte is a XOR of powers of two, and the eight entries are evaluated. -/
theorem tableIsLinear : Obligations.TableIsLinear := by
  refine ⟨fun poly a b => ?_, fun t t' h h' hpow => ?_, ?_⟩
  · simp only [genTable_entry, gen_xor]
  · exact table_ext t t' fun b => entry_eq_of_high_zero h h' hpow 8 le_rfl b fun i hi => BitVec.getLsbD_of_ge b i hi
  · simp only [genTable_entry]
    decide

/-! ### Nothing but the generator writes T (R83) -/

@[simp] theorem State.releaseReset_tbl (s : State) : s.releaseReset.tbl = s.tbl := by rw [State.releaseReset_eq]

/-- No command writes T. -/
theorem exec_tbl {i : Instr} {s t : State} (h : exec i s = .next t) : t.tbl = s.tbl := by
  obtain ⟨e, -, rfl⟩ := exec_next h
  rfl

/-- No input writes T. -/
theorem accept_tbl {s t : State} {x : Input} (h : s.accept x = .next t) : t.tbl = s.tbl := by
  obtain ⟨k, -, -, rfl⟩ | ⟨k, e, e', -, -, rfl, -⟩ | ⟨-, rfl⟩ | ⟨-, rfl⟩ := accept_cases h
  · rfl
  · rfl
  · rfl
  · exact s.releaseReset_tbl

/-- The machine that goes on by itself writes T only where the generator is at work. -/
theorem serve_tbl {s t : State} (h : s.serve = .next t) (hidle : ∀ g, s.phase ≠ .generating g) : t.tbl = s.tbl := by
  obtain ⟨-, rfl⟩ | ⟨g, hg, -⟩ | ⟨-, hrun⟩ := serve_next h
  · rfl
  · exact absurd hg (hidle g)
  · obtain ⟨_, _, _, _, rfl, -⟩ := runCommand_next hrun
    rfl

/-- No step writes T unless the generator is at work. -/
theorem step_tbl_of_idle {s t : State} (h : step s = .next t) (hidle : ∀ g, s.phase ≠ .generating g) :
    t.tbl = s.tbl := by
  obtain ⟨-, hserve⟩ | ⟨k, rest, -, -, hserve⟩ | ⟨x, rest, -, -, haccept⟩ := step_next h
  · exact serve_tbl hserve hidle
  · exact (serve_tbl hserve hidle :)
  · exact (accept_tbl haccept :)

/-- No step that takes a host's input writes T. -/
theorem step_tbl_of_input {s t : State} {x : Input} {rest : List Input} (h : step s = .next t)
    (ha : s.agenda = x :: rest) (hx : ∀ k, x ≠ .serve k) : t.tbl = s.tbl := by
  rw [step_of_input ha hx] at h
  exact (accept_tbl h :)

/-- Settles O13: commands replace an engine, inputs an engine or the phase, and only the generator stores entries. -/
theorem tableIsNeverWrittenAfterReset : Obligations.TableIsNeverWrittenAfterReset := by
  refine ⟨fun _ _ _ => exec_tbl, fun s t h hcase => ?_⟩
  obtain hidle | ⟨x, rest, ha, hx⟩ := hcase
  · exact step_tbl_of_idle h hidle
  · exact step_tbl_of_input h ha hx

end Sys2Proof.Machine
end

section
/-! PROOF. The obligations of the update engine (spec/41_update_engine.md): INIT, UPDB, UPDR under both range policies,
VALUE, and the checksum of sequences of them. -/

namespace Sys2Proof.Machine

/-! ### The word of a command (R65, R66) -/

section Words
variable {hasTread : Bool} {s u : State} {e : Engine} {cw : Word} {operands rest : List Word}

/-- A whole command whose word is not legal ends in IllegalCommand. -/
theorem step_of_not_legal (hawaits : s.awaits u e (cw :: operands ++ rest))
    (hlength : operands.length + 1 = commandLength cw) (hnot : legal s.cfg.hasTread cw ≠ true) :
    s.endsInIllegalCommand u e rest := by
  obtain ⟨why, hdecode⟩ := decode_of_not_legal hlength hnot rest
  exact step_of_illegal hawaits hdecode

/-- A word of a command without an immediate is legal where it is the command's one word (R65). -/
theorem legal_iff_of_op_without_immediate {op : BitVec 4} (hop : fieldOp cw = op)
    (h : op = 0x1#4 ∨ op = 0x3#4 ∨ op = 0x4#4) : legal hasTread cw = true ↔ cw = commandWord op 0#8 := by
  subst hop
  constructor
  · intro hlegal
    obtain ⟨hz1, hz0, ⟨-, himm⟩ | hother | ⟨hother, -⟩⟩ := (legal_iff _ _).mp hlegal
    · exact himm ▸ eq_commandWord cw hz1 hz0
    · simp [hother] at h
    · simp [hother] at h
  · intro hcw
    rw [legal_iff, hcw]
    simpa using Or.inl h

/-- A word of OP 0x2 is legal where the reserved fields are 0 (R65). -/
theorem legal_iff_of_op_updb (hop : fieldOp cw = 0x2#4) :
    legal hasTread cw = true ↔ fieldZ1 cw = 0#16 ∧ fieldZ0 cw = 0#4 := by
  simp [legal_iff, hop]

/-- A legal word of OP 0x2 is UPDB of its IMM8. -/
theorem decode_updb (cfg : Config) (hop : fieldOp cw = 0x2#4) (hz1 : fieldZ1 cw = 0#16) (hz0 : fieldZ0 cw = 0#4)
    (rest : List Word) : decode cfg (cw :: rest) = .command (.updb (fieldImm8 cw)) rest := by
  have hcw : commandWord 0x2#4 (fieldImm8 cw) = cw := hop ▸ (eq_commandWord cw hz1 hz0).symm
  have hdecode := decodeOfEncode cfg (.updb (fieldImm8 cw)) rest rfl nofun
  rwa [encode, hcw] at hdecode

/-- The word of INIT or VALUE runs the command, and any other word of its OP ends in IllegalCommand (R101, R110). -/
theorem step_of_word_without_operands {i : Instr} {op : BitVec 4}
    (hi : i = .init ∧ op = 0x1#4 ∨ i = .value ∧ op = 0x4#4) (hawaits : s.awaits u e (cw :: rest))
    (hop : fieldOp cw = op) :
    (cw = commandWord op 0#8 → step s = exec i (u.setEngine (e.taken rest))) ∧
      (cw ≠ commandWord op 0#8 → s.endsInIllegalCommand u e rest) := by
  have hone : op = 0x1#4 ∨ op = 0x3#4 ∨ op = 0x4#4 := hi.imp And.right fun h => .inr h.2
  refine ⟨fun hcw => ?_, fun hne => ?_⟩
  · subst hcw
    obtain ⟨rfl, rfl⟩ | ⟨rfl, rfl⟩ := hi
    · exact step_of_command hawaits (decodeOfEncode s.cfg .init rest rfl nofun)
    · exact step_of_command hawaits (decodeOfEncode s.cfg .value rest rfl nofun)
  · have hlength : commandLength cw = 1 := if_neg (by obtain ⟨-, rfl⟩ | ⟨-, rfl⟩ := hi <;> simp [hop])
    have hnot := mt (legal_iff_of_op_without_immediate (hasTread := s.cfg.hasTread) hop hone).mp hne
    exact step_of_not_legal (operands := []) hawaits hlength.symm hnot

/-- The word of UPDR with its operand words runs the command, and any other word of OP 0x3 ends in IllegalCommand
(R107). -/
theorem step_of_updr_words {o l : Word} (hawaits : s.awaits u e (cw :: o :: l :: rest)) (hop : fieldOp cw = 0x3#4) :
    (cw = 0x00000003#32 → s.cfg.idxW = 32 → step s = exec (.updr o.toInt l.toInt) (u.setEngine (e.taken rest))) ∧
      (cw ≠ 0x00000003#32 → s.endsInIllegalCommand u e rest) := by
  refine ⟨fun hcw hwidth => ?_, fun hne => ?_⟩
  · have hdecode := decode_updr s.cfg o l rest
    rw [hwidth, operandInt_32, operandInt_32] at hdecode
    subst hcw
    exact step_of_command hawaits hdecode
  · exact step_of_not_legal (operands := [o, l]) hawaits (if_pos hop).symm
      (mt (legal_iff_of_op_without_immediate hop (.inr (.inl rfl))).mp hne)

end Words

/-! ### INIT, UPDB and VALUE (R101, R104, R110) -/

/-- Settles O15: the command's effect, and its word, which is legal or not. -/
theorem initPresetsTheRegister : Obligations.InitPresetsTheRegister :=
  ⟨fun _ _ he => exec_some .init he,
    fun _ _ _ _ _ hawaits hop => step_of_word_without_operands (.inl ⟨rfl, rfl⟩) hawaits hop⟩

/-- VALUE only delivers a response. -/
theorem exec_value {s : State} {e : Engine} (he : s.engines[s.cur]? = some e) :
    exec .value s = .next (s.setEngine (e.respond .ok (~~~ e.crc))) := exec_some .value he

/-- Settles O20: the command's effect, and its word, which is legal or not. -/
theorem valueAnswersTheComplement : Obligations.ValueAnswersTheComplement :=
  ⟨fun _ _ => exec_value,
    fun _ _ _ _ _ hawaits hop => step_of_word_without_operands (.inr ⟨rfl, rfl⟩) hawaits hop⟩

/-- Settles O16: the command's effect, and its word, which is legal or not. -/
theorem updbFoldsItsByte : Obligations.UpdbFoldsItsByte := by
  refine ⟨fun s e x he => exec_some (.updb x) he, fun s u e cw rest hawaits hop => ⟨?_, fun hillegal => ?_⟩⟩
  · rintro ⟨hz1, hz0⟩
    exact step_of_command hawaits (decode_updb s.cfg hop hz1 hz0 rest)
  · have hone : fieldOp cw ≠ 0x3#4 := ne_of_eq_of_ne hop (by decide)
    exact step_of_not_legal (operands := []) hawaits (if_neg hone).symm (mt (legal_iff_of_op_updb hop).mp hillegal)

/-! ### The fold (R11, R104) -/

/-- The entry that a fold uses is that of the byte XORed with the register's low byte. -/
theorem fold_eq (t : Table) (c : U64) (x : Byte) :
    fold t c x = t.entry (x ^^^ c.extractLsb' 0 8) ^^^ (c >>> 8) := by
  have hbyte : (x.setWidth 64).extractLsb' 0 8 = x :=
    BitVec.eq_of_getLsbD_eq fun i hi => by simp [hi, show i < 64 by omega]
  rw [fold, BitVec.extractLsb'_xor, hbyte]

/-- Shifting right by 8 empties the top byte. -/
theorem topByte_shift (c : U64) : (c >>> 8).extractLsb' 56 8 = 0#8 := by
  refine BitVec.eq_of_getLsbD_eq fun i _ => ?_
  rw [BitVec.getLsbD_extractLsb', BitVec.getLsbD_ushiftRight, BitVec.getLsbD_of_ge c _ (by omega), Bool.and_false,
    BitVec.getLsbD_zero]

/-- Settles O17: the shifted register has no top byte, and the entry at 0 of a generated table is 0. -/
theorem foldCornerCases : Obligations.FoldCornerCases := by
  refine ⟨fun t c x => ?_, fun poly c => ?_⟩
  · rw [fold_eq, BitVec.extractLsb'_xor, topByte_shift, BitVec.xor_zero]
  · have hzero : gen poly 0#8 = 0#64 := genRun_zero poly genIter
    rw [fold_eq, BitVec.xor_self, genTable_entry, hzero, BitVec.zero_xor]

/-! ### The range of UPDR (R106 to R108) -/

/-- How many indices of a range are in the buffer before the first that is not (R108). -/
def goodIndices (srcLen : Nat) (off len : Int) : Nat := if 0 ≤ off then min len.toNat (srcLen - off.toNat) else 0

section Range
variable (t : Table) (rd : Nat → Byte) (srcLen : Nat) (off len : Int) (c : U64)

/-- Every index of a range is in the buffer exactly when the count is the length. -/
theorem goodIndices_eq_iff :
    goodIndices srcLen off len = len.toNat ↔ ∀ i : Int, off ≤ i → i < off + len → 0 ≤ i ∧ i < srcLen := by
  unfold goodIndices
  refine ⟨fun hgood i hlow hhigh => ?_, fun hinside => ?_⟩
  · split at hgood <;> omega
  · by_cases hlen : 0 < len
    · have hfirst := hinside off le_rfl (by omega)
      have hlast := hinside (off + len - 1) (by omega) (by omega)
      rw [if_pos hfirst.1]
      omega
    · have hzero : len.toNat = 0 := by omega
      simp [hzero]

theorem goodIndices_le : goodIndices srcLen off len ≤ len.toNat := by
  unfold goodIndices
  split <;> omega

/-- Of a range that begins outside the buffer no index is good. -/
theorem goodIndices_of_outside (h : off < 0 ∨ (srcLen : Int) ≤ off) : goodIndices srcLen off len = 0 := by
  unfold goodIndices
  split <;> omega

/-- FOLD_UNTIL_FAULT folds the good indices, and succeeds where these are all (R108). -/
theorem updateRange_foldUntilFault :
    updateRange .foldUntilFault t rd srcLen off len c =
      (foldSeq t c ((List.range (goodIndices srcLen off len)).map fun k => rd (off.toNat + k)),
        decide (goodIndices srcLen off len = len.toNat)) := by
  rw [← bytesFrom_eq_map, updateRange]
  by_cases hout : off < 0 ∨ (srcLen : Int) ≤ off
  · rw [goodIndices_of_outside srcLen off len hout]
    cases len.toNat with
    | zero => rfl
    | succ count => rw [foldUntil_outside t rd srcLen count off c hout]; rfl
  · obtain ⟨start, rfl⟩ := Int.eq_ofNat_of_zero_le (show 0 ≤ off by omega)
    have hgood : goodIndices srcLen start len = min len.toNat (srcLen - start) := if_pos (by omega)
    rw [hgood, Int.toNat_natCast]
    by_cases hend : start + len.toNat ≤ srcLen
    · rw [foldUntil_inside t rd srcLen len.toNat start c hend, Nat.min_eq_left (by omega), decide_eq_true rfl]
    · rw [foldUntil_past_end t rd srcLen len.toNat start c (by omega) (by omega), Nat.min_eq_right (by omega),
        decide_eq_false (by omega)]

variable {t rd srcLen off len c}

/-- On a valid range each policy folds its bytes and succeeds (R107, R108). -/
theorem updateRange_of_validRange (policy : RangePolicy) (h : validRange off len srcLen = true) :
    updateRange policy t rd srcLen off len c = (foldSeq t c (bytesFrom rd off.toNat len.toNat), true) := by
  obtain ⟨hoff, hlen, hend⟩ := of_decide_eq_true h
  obtain ⟨start, rfl⟩ := Int.eq_ofNat_of_zero_le hoff
  obtain ⟨count, rfl⟩ := Int.eq_ofNat_of_zero_le hlen
  exact updateRange_of_valid policy t rd start count srcLen c (by omega)

/-- On any other range CHECK_FIRST folds nothing and fails (R107). -/
theorem updateRange_checkFirst_of_invalid (h : validRange off len srcLen = false) :
    updateRange .checkFirst t rd srcLen off len c = (c, false) :=
  if_neg (ne_true_of_eq_false h)

/-- An UPDR that succeeds has folded every index of its range, under either policy (R107, R108). -/
theorem updateRange_of_success {policy : RangePolicy} (h : (updateRange policy t rd srcLen off len c).2 = true) :
    (updateRange policy t rd srcLen off len c).1 =
      foldSeq t c ((List.range len.toNat).map fun k => rd (off.toNat + k)) := by
  cases policy with
  | checkFirst =>
    cases hvalid : validRange off len srcLen with
    | true => rw [updateRange_of_validRange _ hvalid, bytesFrom_eq_map]
    | false =>
      rw [updateRange_checkFirst_of_invalid hvalid] at h
      cases h
  | foldUntilFault =>
    rw [updateRange_foldUntilFault] at h ⊢
    rw [of_decide_eq_true h]

/-- UPDR folds no byte where its first index is outside the buffer, where it has no index to read, and under CHECK_FIRST
where the range runs past the end (R107, R108). -/
theorem updateRange_of_nothing {cfg : Config} (h : Instr.foldsNothing cfg srcLen (.updr off len)) :
    (updateRange cfg.rangePolicy t rd srcLen off len c).1 = c := by
  unfold Instr.foldsNothing at h
  cases hpolicy : cfg.rangePolicy with
  | checkFirst =>
    cases hvalid : validRange off len srcLen with
    | true =>
      have hzero : len.toNat = 0 := by
        obtain ⟨hoff, hlen, hend⟩ := of_decide_eq_true hvalid
        omega
      rw [updateRange_of_validRange _ hvalid, hzero]
      rfl
    | false => rw [updateRange_checkFirst_of_invalid hvalid]
  | foldUntilFault =>
    have hzero : goodIndices srcLen off len = 0 := by
      simp only [hpolicy, reduceCtorEq, false_and, or_false] at h
      unfold goodIndices
      split <;> omega
    rw [updateRange_foldUntilFault, hzero]
    rfl

end Range

/-- Settles O24: on a valid range each policy folds its bytes. -/
theorem policiesAgreeOnValidRanges : Obligations.PoliciesAgreeOnValidRanges := by
  intro t rd n off len c hoff hlen hend
  have hvalid : validRange off len n = true := decide_eq_true ⟨hoff, hlen, hend⟩
  rw [updateRange_of_validRange .checkFirst hvalid, updateRange_of_validRange .foldUntilFault hvalid]

/-! ### UPDR on its engine (R107, R108) -/

section UpdrOnEngine
variable {policy : RangePolicy} {t : Table} {draw : Nat} {off len : Int} {e : Engine} {c : U64}

/-- UPDR of a good range leaves STATUS and responds (OK, 0). -/
theorem updrEngine_of_good (h : updateRange policy t (srcRead draw e.src) e.src.len off len e.crc = (c, true)) :
    updrEngine policy t draw off len e =
      { e with crc := c, src := e.src.settle, rsp := e.rsp ++ [⟨.ok, 0#64⟩] } := by
  rw [updrEngine_eq, h]
  rfl

/-- UPDR of any other range sets ERR_RANGE and responds (RANGE, 0). -/
theorem updrEngine_of_bad (h : updateRange policy t (srcRead draw e.src) e.src.len off len e.crc = (c, false)) :
    updrEngine policy t draw off len e =
      { e with
        crc := c, src := e.src.settle, status := e.status ||| 1#32, rsp := e.rsp ++ [⟨.range, 0#64⟩] } := by
  rw [updrEngine_eq, h]
  rfl

/-- Whether the range was good decides STATUS (R107, R108). -/
theorem updrEngine_status_eq :
    (updrEngine policy t draw off len e).status =
      if (updateRange policy t (srcRead draw e.src) e.src.len off len e.crc).2 then e.status
      else e.status ||| 1#32 := by
  rw [updrEngine_eq]
  exact apply_ite Engine.status ..

/-- UPDR that responds OK had a good range. -/
theorem updateRange_of_ok (h : (updrEngine policy t draw off len e).rsp = e.rsp ++ [⟨.ok, 0#64⟩]) :
    (updateRange policy t (srcRead draw e.src) e.src.len off len e.crc).2 = true := by
  obtain hgood | hbad := Bool.eq_false_or_eq_true (updateRange policy t (srcRead draw e.src) e.src.len off len e.crc).2
  · exact hgood
  · rw [updrEngine_of_bad (Prod.ext rfl hbad)] at h
    simp at h

end UpdrOnEngine

/-- Settles O18: the range is valid or not, and so is the word. -/
theorem updrUnderCheckFirst : Obligations.UpdrUnderCheckFirst := by
  refine ⟨fun s e off len hpolicy he => ?_, fun _ _ _ _ _ _ _ hawaits hop => step_of_updr_words hawaits hop⟩
  obtain ⟨t, ht, -, het⟩ := exec_engine (.updr off len) he
  rw [effect, hpolicy] at het
  refine ⟨t, _, ht, het, fun hvalid => ?_, fun hinvalid => ?_⟩
  · rw [← bytesFrom_eq_map, updrEngine_of_good (updateRange_of_validRange _ (decide_eq_true hvalid))]
    exact ⟨rfl, rfl, rfl⟩
  · rw [updrEngine_of_bad (updateRange_checkFirst_of_invalid (decide_eq_false hinvalid))]
    exact ⟨rfl, rfl, rfl⟩

/-- Settles O19: every index is good or one is not, and the word is legal or not. -/
theorem updrUnderFoldUntilFault : Obligations.UpdrUnderFoldUntilFault := by
  refine ⟨fun s e off len hpolicy he => ?_, fun _ _ _ _ _ _ _ hawaits hop => step_of_updr_words hawaits hop⟩
  obtain ⟨t, ht, -, het⟩ := exec_engine (.updr off len) he
  rw [effect, hpolicy] at het
  have hrange := updateRange_foldUntilFault s.tbl (srcRead s.draws e.src) e.src.len off len e.crc
  have hiff := goodIndices_eq_iff e.src.len off len
  refine ⟨t, _, ht, het, (updrEngine_crc ..).trans (congrArg Prod.fst hrange), fun hinside => ?_, fun hout => ?_⟩
  · have hall := hiff.mpr hinside
    rw [decide_eq_true hall] at hrange
    rw [updrEngine_of_good hrange]
    exact ⟨hall, rfl, rfl⟩
  · have hnot : goodIndices e.src.len off len ≠ len.toNat := by
      obtain ⟨i, hlow, hhigh, houtside⟩ := hout
      exact fun hall => houtside (hiff.mp hall i hlow hhigh)
    rw [decide_eq_false hnot] at hrange
    rw [updrEngine_of_bad hrange]
    exact ⟨Nat.lt_of_le_of_ne (goodIndices_le ..) hnot, rfl, rfl⟩

/-! ### Sequences of commands (R109 to R113) -/

/-- A sequence runs its first command, then the others. -/
theorem runCommands_cons (i : Instr) (cs : List Instr) {s : State} {e : Engine} (he : s.engines[s.cur]? = some e) :
    runCommands (i :: cs) s = runCommands cs
      (State.setEngine { s with draws := s.draws + drawStep i } (effect s.cfg s.tbl s.draws i e)) := by
  rw [runCommands, exec_some i he]

/-- Settles O27: the run of UPDB folds the same bytes. -/
theorem updrEqualsItsUpdbs : Obligations.UpdrEqualsItsUpdbs := by
  intro s t e e' off len he hexec he' hrsp
  obtain ⟨t', ht', -, het⟩ := exec_engine (.updr off len) he
  obtain rfl : t = t' := by simpa using hexec.symm.trans ht'
  obtain rfl := Option.some.inj (het.symm.trans he')
  have hcrc := updateRange_of_success (updateRange_of_ok hrsp)
  obtain ⟨u, e'', hrun, hu, hfold⟩ :=
    runCommands_updb ((List.range len.toNat).map fun k => srcRead s.draws e.src (off.toNat + k)) s e he
  rw [List.map_map] at hrun
  exact ⟨u, e'', hrun, hu, hfold.trans (hcrc.symm.trans (updrEngine_crc ..).symm)⟩

/-- A command that folds bytes of an unchanging buffer folds these bytes and leaves the buffer (R104, R107, R108). -/
theorem effect_of_updateBytes {cfg : Config} {t : Table} {draw : Nat} {i : Instr} {e : Engine} {bs : List Byte}
    (hracing : e.src.racing = []) (h : updateBytes cfg.rangePolicy e.src i = some bs) :
    (effect cfg t draw i e).crc = foldSeq t e.crc bs ∧ (effect cfg t draw i e).src = e.src := by
  cases i with
  | updb x =>
    obtain rfl := Option.some.inj h
    exact ⟨rfl, rfl⟩
  | updr off len =>
    refine ⟨?_, (updrEngine_src ..).trans (Src.settle_of_no_racing _ hracing)⟩
    rw [effect, updrEngine_crc, srcRead_of_no_racing _ _ hracing]
    simp only [updateBytes] at h
    split_ifs at h with hvalid hempty
    · obtain rfl := Option.some.inj h
      rw [updateRange_of_validRange _ hvalid]
    · obtain rfl := Option.some.inj h
      exact updateRange_of_nothing (.inr (.inl hempty.2))
  | _ => cases h

/-- The bytes of a sequence are those of its first command, then those of the others. -/
theorem updatesBytes_cons {policy : RangePolicy} {src : Src} {i : Instr} {cs : List Instr} {bs : List Byte}
    (h : updatesBytes policy src (i :: cs) = some bs) :
    ∃ first rest, updateBytes policy src i = some first ∧ updatesBytes policy src cs = some rest ∧
      bs = first ++ rest := by
  simp only [updatesBytes] at h
  split at h
  · exact ⟨_, _, ‹_›, ‹_›, (Option.some.inj h).symm⟩
  · cases h
  · cases h

/-- A sequence of updates completes and folds their bytes, joined (R112). -/
theorem runCommands_updates (cs : List Instr) (s : State) (e : Engine) (bs : List Byte)
    (he : s.engines[s.cur]? = some e) (hracing : e.src.racing = [])
    (h : updatesBytes s.cfg.rangePolicy e.src cs = some bs) :
    ∃ t e', runCommands cs s = .next t ∧ t.engines[s.cur]? = some e' ∧ e'.crc = foldSeq s.tbl e.crc bs := by
  induction cs generalizing s e bs with
  | nil =>
    obtain rfl := Option.some.inj h
    exact ⟨s, e, rfl, he, rfl⟩
  | cons i cs ih =>
    obtain ⟨first, rest, hfirst, hrest, rfl⟩ := updatesBytes_cons h
    obtain ⟨hcrc, hsrc⟩ := effect_of_updateBytes (t := s.tbl) (draw := s.draws) hracing hfirst
    rw [runCommands_cons i cs he, foldSeq_append, ← hcrc]
    exact ih _ _ rest (State.setEngine_self _ he) (hsrc ▸ hracing) (hsrc ▸ hrest)

/-- Settles O28: both runs fold the bytes of their commands, joined. -/
theorem chunkBoundariesDoNotMatter : Obligations.ChunkBoundariesDoNotMatter := by
  intro cs cs' s e bs bs' he hracing h h'
  obtain ⟨t, e₁, hrun, he₁, hcrc⟩ := runCommands_updates cs s e bs he hracing h
  obtain ⟨t', e₂, hrun', he₂, hcrc'⟩ := runCommands_updates cs' s e bs' he hracing h'
  refine ⟨⟨t, e₁, hrun, he₁, hcrc⟩, fun hbytes => ⟨t, t', e₁, e₂, hrun, hrun', he₁, he₂, ?_⟩⟩
  rw [hcrc, hcrc', hbytes]

/-- What a command does to CRC and STATUS does not depend on the responses that wait. -/
theorem effect_respond (cfg : Config) (t : Table) (draw : Nat) (i : Instr) (e : Engine) (code : RCode) (data : U64) :
    (effect cfg t draw i (e.respond code data)).crc = (effect cfg t draw i e).crc ∧
      (effect cfg t draw i (e.respond code data)).status = (effect cfg t draw i e).status := by
  cases i with
  | updr off len =>
    simp only [effect, updrEngine_crc, updrEngine_status_eq]
    exact ⟨rfl, rfl⟩
  | tread index =>
    simp only [effect]
    split <;> exact ⟨rfl, rfl⟩
  | _ => exact ⟨rfl, rfl⟩

/-- A VALUE and a command after it complete, with the command's effect on the engine that has answered. -/
theorem runCommands_value_then (i : Instr) {s : State} {e : Engine} (he : s.engines[s.cur]? = some e) :
    ∃ t, runCommands [.value, i] s = .next t ∧
      t.engines[s.cur]? = some (effect s.cfg s.tbl s.draws i (e.respond .ok (~~~ e.crc))) := by
  obtain ⟨t, ht, -, het⟩ := exec_engine i (State.setEngine_self (e.respond .ok (~~~ e.crc)) he)
  exact ⟨t, by rw [runCommands, exec_value he]; simp only [runCommands, ht], het⟩

/-- Settles O29: VALUE only delivers a response. -/
theorem valueIsTransparent : Obligations.ValueIsTransparent := by
  intro s e he
  refine ⟨?_, fun i => ?_⟩
  · obtain ⟨t, hrun, het⟩ := runCommands_value_then .value he
    exact ⟨t, _, hrun, het, List.append_assoc .., rfl, rfl⟩
  · obtain ⟨t, hrun, het⟩ := runCommands_value_then i he
    obtain ⟨hcrc, hstatus⟩ := effect_respond s.cfg s.tbl s.draws i e .ok (~~~ e.crc)
    exact ⟨t, _, _, _, hrun, runCommands_cons i [] he, het, State.setEngine_self _ he, hcrc, hstatus⟩

/-- A command that folds no byte leaves the preset, and the buffer's length. -/
theorem effect_of_foldsNothing {cfg : Config} (t : Table) (draw : Nat) {i : Instr} {e : Engine}
    (h : Instr.foldsNothing cfg e.src.len i) (hcrc : e.crc = preset) :
    (effect cfg t draw i e).crc = preset ∧ (effect cfg t draw i e).src.len = e.src.len := by
  refine ⟨?_, ?_⟩
  · cases i with
    | init => rfl
    | updb x => exact h.elim
    | updr off len => rw [effect, updrEngine_crc, updateRange_of_nothing h, hcrc]
    | value => exact hcrc
    | tread index => rw [effect_crc_of_read _ _ _ _ (.inr ⟨index, rfl⟩), hcrc]
  · obtain hsrc | hsrc := effect_src cfg t draw i e
    · rw [hsrc]
    · rw [hsrc, Src.settle_len]

/-- From the preset, VALUE after commands that fold no byte answers 0 (R113). -/
theorem runCommands_value_of_preset (cs : List Instr) (s : State) (e : Engine) (he : s.engines[s.cur]? = some e)
    (hcrc : e.crc = preset) (h : foldsNothing s.cfg e.src.len cs) :
    ∃ t e' earlier, runCommands (cs ++ [.value]) s = .next t ∧ t.engines[s.cur]? = some e' ∧
      e'.rsp = earlier ++ [⟨.ok, 0x0000000000000000#64⟩] := by
  induction cs generalizing s e with
  | nil =>
    have hzero : ~~~ e.crc = 0x0000000000000000#64 := by rw [hcrc]; decide
    exact ⟨_, _, e.rsp, runCommands_cons .value [] he, State.setEngine_self _ he, hzero ▸ rfl⟩
  | cons i cs ih =>
    obtain ⟨hi, hcs⟩ := List.forall_mem_cons.mp h
    obtain ⟨hpreset, hlen⟩ := effect_of_foldsNothing s.tbl s.draws hi hcrc
    rw [List.cons_append, runCommands_cons i _ he]
    exact ih _ _ (State.setEngine_self _ he) hpreset (hlen ▸ hcs)

/-- Settles O30: INIT and reset set the preset, and no command between folds a byte. -/
theorem emptyInputGivesZero : Obligations.EmptyInputGivesZero := by
  refine ⟨fun s e cs he h => ?_, fun s e cs he h => ?_, fun cfg k cs hk h => ?_⟩
  · rw [List.cons_append, runCommands_cons .init _ he]
    exact runCommands_value_of_preset cs _ _ (State.setEngine_self _ he) rfl h
  · exact runCommands_value_of_preset cs s e.inReset he rfl h
  · have he : (State.resetOf cfg).engines[k]? = some Engine.reset := by
      rw [State.resetOf, List.getElem?_replicate, if_pos hk]
    exact runCommands_value_of_preset cs { State.resetOf cfg with cur := k } Engine.reset he rfl h

end Sys2Proof.Machine
end

section
/-! PROOF. The obligations of the exceptions (spec/60_exceptions.md): legality before the range, precise errors, no mode
after an error, and a machine that always goes on. -/

namespace Sys2Proof.Machine

/-! ### Legality before the range (R143) -/

/-- ERR_ILLEGAL is set and ERR_RANGE stays when an engine raises IllegalCommand (R140). -/
theorem status_or_illegal (st : Word) :
    errRange (st ||| 0x2#32) = errRange st ∧ errIllegal (st ||| 0x2#32) = true :=
  ⟨(errRange_setStatus st .illegalCommand).trans (Bool.or_false _),
    (errIllegal_setStatus st .illegalCommand).trans (Bool.or_true _)⟩

/-- Settles O33: the word is not that of UPDR, so the engine ends in IllegalCommand whatever the operands are. -/
theorem legalityBeforeRange : Obligations.LegalityBeforeRange := by
  intro s u t e e' cw o l rest hawaits hop hne h he'
  have hstep : s.endsInIllegalCommand u e rest := (step_of_updr_words hawaits hop).2 hne
  obtain ⟨-, -, he, -⟩ := hawaits
  obtain rfl := Host.Outcome.next.inj (hstep.symm.trans h)
  obtain rfl := Option.some.inj ((State.setEngine_self _ he).symm.trans he')
  obtain ⟨hrange, hillegal⟩ := status_or_illegal e.status
  exact ⟨hrange, hillegal, rfl⟩

/-! ### Precise errors (R141, R145) -/

/-- Under CHECK_FIRST a command responds OK or leaves CRC: UPDR checks its range before it folds (R107), and TREAD
writes no register (R85). -/
theorem effect_rsp_ok_or_crc_eq {cfg : Config} (h : cfg.rangePolicy = .checkFirst) (t : Table) (draw : Nat)
    (i : Instr) (e : Engine) :
    (∃ d, (effect cfg t draw i e).rsp = e.rsp ++ [⟨.ok, d⟩]) ∨ (effect cfg t draw i e).crc = e.crc := by
  cases i with
  | init => exact .inl ⟨_, rfl⟩
  | updb x => exact .inl ⟨_, rfl⟩
  | updr off len =>
    rw [effect, h]
    cases hvalid : validRange off len e.src.len with
    | true =>
      rw [updrEngine_of_good (updateRange_of_validRange _ hvalid)]
      exact .inl ⟨_, rfl⟩
    | false =>
      rw [updrEngine_of_bad (updateRange_checkFirst_of_invalid hvalid)]
      exact .inr rfl
  | value => exact .inl ⟨_, rfl⟩
  | tread index => exact .inr (effect_crc_of_read cfg t draw e (.inr ⟨index, rfl⟩))

/-- A response with another code is not the (OK, d) of a command that succeeds (R68). -/
theorem rsp_ne_ok {rsp earlier : List Response} {r : Response} (hrsp : rsp = earlier ++ [r]) (hcode : r.code ≠ .ok)
    (d : U64) : rsp ≠ earlier ++ [⟨.ok, d⟩] := by
  intro hok
  obtain rfl : r = ⟨.ok, d⟩ := by simpa using hrsp.symm.trans hok
  exact hcode rfl

/-- A command whose response is not OK ends in the error that the response reports (R144). -/
theorem effect_of_error_response {cfg : Config} {t : Table} {draw : Nat} {i : Instr} {e : Engine} {r : Response}
    (hrsp : (effect cfg t draw i e).rsp = e.rsp ++ [r]) (hcode : r.code ≠ .ok) :
    ∃ err : Err, r = ⟨err.code, 0#64⟩ ∧ (effect cfg t draw i e).status = setStatus e.status err := by
  obtain ⟨d, hok, -⟩ | ⟨err, herr, hstatus⟩ := effect_ends cfg t draw i e
  · exact absurd hok (rsp_ne_ok hrsp hcode d)
  · exact ⟨err, by simpa using hrsp.symm.trans herr, hstatus⟩

/-- Settles O34: the command ends in an error, which sets its bit, and CHECK_FIRST has folded nothing. -/
theorem errorsArePreciseUnderCheckFirst : Obligations.ErrorsArePreciseUnderCheckFirst := by
  intro i s t e e' r hpolicy h he he' hrsp hcode
  obtain ⟨u, hu, -, heu⟩ := exec_engine i he
  obtain rfl := Host.Outcome.next.inj (h.symm.trans hu)
  obtain rfl := Option.some.inj (heu.symm.trans he')
  have hcrc := (effect_rsp_ok_or_crc_eq hpolicy s.tbl s.draws i e).resolve_left
    fun ⟨d, hok⟩ => rsp_ne_ok hrsp hcode d hok
  obtain ⟨err, rfl, hstatus⟩ := effect_of_error_response hrsp hcode
  refine ⟨hcrc, rfl, ?_⟩
  cases err with
  | illegalCommand => exact ⟨nofun, fun _ => hstatus⟩
  | rangeError => exact ⟨fun _ => hstatus, nofun⟩

/-! ### No mode after an error (R146) -/

/-- A command on an engine with another STATUS does the same to all the rest of it. -/
theorem effect_withStatus (cfg : Config) (t : Table) (draw : Nat) (i : Instr) (e : Engine) (st : Word) :
    ∃ st', effect cfg t draw i { e with status := st } = { effect cfg t draw i e with status := st' } := by
  cases i with
  | updr off len =>
    simp only [effect, updrEngine]
    split <;> exact ⟨_, rfl⟩
  | tread index =>
    simp only [effect]
    split <;> exact ⟨_, rfl⟩
  | _ => exact ⟨st, rfl⟩

/-- Settles O38: the effects on the two engines differ in STATUS at most. -/
theorem statusDoesNotChangeCommands : Obligations.StatusDoesNotChangeCommands := by
  intro i s e st he
  obtain ⟨t, ht, -, het⟩ := exec_engine i he
  obtain ⟨u, hu, -, heu⟩ := exec_engine i (State.setEngine_self { e with status := st } he)
  obtain ⟨st', heffect⟩ := effect_withStatus s.cfg s.tbl s.draws i e st
  exact ⟨t, u, _, _, ht, hu, het, heu.trans (congrArg some heffect), rfl, rfl, rfl, rfl⟩

/-! ### The engine that is served (R152, log 15) -/

/-- Settles O49: a command is a change of the served engine, which completes where there is that engine. -/
theorem commandsNeedAnEngine : Obligations.CommandsNeedAnEngine := by
  intro i s
  refine ⟨fun hnone => ?_, fun hfault => ?_⟩
  · rw [exec_eq]
    exact State.onEngineAt_none _ hnone
  · cases he : s.engines[s.cur]? with
    | none => rfl
    | some e =>
      rw [exec_some i he] at hfault
      cases hfault

/-! ### The machine goes on (R142, R144, R182) -/

/-- Taking a command completes where the served engine is there, whether it is executed, illegal or incomplete (R142,
R144; log 6). -/
theorem runCommand_completes {s : State} (hcur : s.cur < s.engines.length) : ∃ t, s.runCommand = .next t := by
  have he : s.engines[s.cur]? = some s.engines[s.cur] := List.getElem?_eq_getElem hcur
  cases hd : decode s.cfg s.engines[s.cur].stream with
  | command i rest =>
    obtain ⟨t, ht, -⟩ := exec_engine i (State.setEngine_self (s.engines[s.cur].taken rest) he)
    exact ⟨t, (runCommand_command he hd).trans ht⟩
  | illegal why rest => exact ⟨_, runCommand_illegal he hd⟩
  | incomplete => exact ⟨_, runCommand_incomplete he hd⟩

/-- The machine that goes on by itself completes, in every phase of reset (R182; log 6). -/
theorem serve_completes {s : State} (hcur : s.cur < s.engines.length) : ∃ t, s.serve = .next t := by
  cases hp : s.phase with
  | asserted => exact ⟨s, by rw [State.serve, hp]⟩
  | generating g => exact ⟨s.generate g, by rw [State.serve, hp]⟩
  | ready =>
    obtain ⟨t, ht⟩ := runCommand_completes hcur
    exact ⟨t, by rw [State.serve, hp, ht]⟩

/-- A change of an engine that there is completes. -/
theorem State.onEngineAt_completes {s : State} {k : Nat} (f : Engine → Engine) (hk : k < s.engines.length) :
    ∃ t, s.onEngineAt k f = .next t :=
  ⟨_, State.onEngineAt_some f (List.getElem?_eq_getElem hk)⟩

/-- An allowed input is accepted: the engine it names is there, and the buffer it binds is not too long (R42, R152). -/
theorem accept_completes {s : State} {x : Input} (hlen : s.engines.length = s.cfg.numEngines)
    (hx : x.allowed s.cfg = true) : ∃ t, s.accept x = .next t := by
  cases x with
  | serve k => exact ⟨_, if_pos (hlen ▸ of_decide_eq_true hx)⟩
  | bindSrc k bytes =>
    obtain ⟨hk, hbytes⟩ := of_decide_eq_true hx
    rw [State.accept, if_pos hbytes]
    exact State.onEngineAt_completes _ (hlen ▸ hk)
  | assertReset => exact ⟨_, rfl⟩
  | releaseReset => exact ⟨_, rfl⟩
  | _ => exact State.onEngineAt_completes _ (hlen ▸ of_decide_eq_true hx)

/-- Settles O52: the served engine is there, and so is an engine that an allowed input names. -/
theorem theMachineNeverStops : Obligations.TheMachineNeverStops := by
  intro s hs hallowed
  obtain ⟨hlen, hcur, -, -⟩ := hs
  cases ha : s.agenda with
  | nil =>
    rw [step_of_empty_agenda ha]
    exact serve_completes hcur
  | cons x rest =>
    have hx : x.allowed s.cfg = true := hallowed x (by rw [ha, List.head?_cons])
    by_cases hserve : ∃ k, x = .serve k
    · obtain ⟨k, rfl⟩ := hserve
      have hk : k < s.engines.length := hlen ▸ of_decide_eq_true hx
      rw [step_of_serve ha hk]
      exact serve_completes hk
    · rw [step_of_input ha (not_exists.mp hserve)]
      exact accept_completes hlen hx

end Sys2Proof.Machine
end

section
/-! PROOF. The obligations of reset and hazards (spec/70_reset_and_hazards.md): the turns before reset completes, the
engine that an incomplete command holds, and the reset from every state. -/

namespace Sys2Proof.Machine

/-! ### Turns before reset completes (R170, R175) -/

/-- While the generator is at work the machine that goes on by itself makes an iteration. -/
theorem State.serve_of_generating {s : State} {g : GenState} (hp : s.phase = .generating g) :
    s.serve = .next (s.generate g) := by
  rw [State.serve, hp]

/-- The machine that goes on by itself leaves every engine until reset completes. -/
theorem serve_engines_of_not_ready {s : State} (h : s.phase ≠ .ready) :
    ∃ t, s.serve = .next t ∧ t.engines = s.engines := by
  cases hp : s.phase with
  | asserted => exact ⟨s, by rw [State.serve, hp], rfl⟩
  | generating g => exact ⟨s.generate g, State.serve_of_generating hp, s.generate_engines g⟩
  | ready => exact absurd hp h

/-- Settles O41: a turn before reset completes is a wait or an iteration of the generator. -/
theorem commandsWaitUntilResetCompletes : Obligations.CommandsWaitUntilResetCompletes := by
  intro s u hturn hphase
  obtain ⟨-, -, hp, hengines, -⟩ := State.turn_keeps hturn
  rw [← hp] at hphase ⊢
  rw [step_of_turn hturn, ← hengines]
  exact ⟨serve_engines_of_not_ready hphase, fun hasserted => by rw [State.serve, hasserted]⟩

/-! ### An incomplete command (R178) -/

/-- Replacing the served engine by itself changes nothing. -/
theorem State.setEngine_of_served {s : State} {e : Engine} (he : s.engines[s.cur]? = some e) : s.setEngine e = s := by
  obtain ⟨hcur, rfl⟩ := List.getElem?_eq_some_iff.mp he
  rw [State.setEngine, State.setEngineAt, List.set_getElem_self]

/-- Settles O40: the stream stays incomplete, so every turn holds the engine, and holding a held engine changes nothing;
the words presented and the reset act on what it has taken. -/
theorem incompleteCommandHoldsTheEngine : Obligations.IncompleteCommandHoldsTheEngine := by
  intro s u e cw tail missing hawaits hop hshort held
  have hincomplete (cfg : Config) : decode cfg (cw :: tail) = .incomplete :=
    (decode_incomplete_iff cfg _).mpr (.inr ⟨cw, tail, rfl, hop, hshort⟩)
  have hheld : e.held = held := by
    obtain ⟨-, -, -, hstream⟩ := hawaits
    rw [Engine.held, hstream]
  refine ⟨hheld ▸ step_of_incomplete hawaits (hincomplete s.cfg), fun s' u' hlater => ?_, rfl, rfl⟩
  have hagain : held.held = held := by simp [held, Engine.held, Engine.stream]
  rw [step_of_incomplete hlater (hincomplete s'.cfg), hagain]
  obtain ⟨-, -, hserved, -⟩ := hlater
  rw [State.setEngine_of_served hserved]

/-! ### The generator's way through its iterations (R80, R173, R182) -/

/-- How many iterations of its 256 times 8 the generator has made since reset was released. -/
def Phase.iterations : Phase → Nat
  | .asserted => 0
  | .generating g => 8 * g.idx + g.iter
  | .ready => 256 * 8

/-- All iterations are made exactly when reset is complete (R173). -/
theorem iterations_eq_iff_ready {poly : U64} {t : Table} {p : Phase} (h : tableInv poly t p) :
    p.iterations = 256 * 8 ↔ p = .ready := by
  cases p with
  | asserted => exact iff_of_false nofun nofun
  | generating g =>
    obtain ⟨hidx, hiter, -, -⟩ := h
    refine iff_of_false (fun hall => ?_) nofun
    simp only [Phase.iterations, genIter] at hall hiter
    omega
  | ready => exact iff_of_true rfl rfl

/-- An iteration is one iteration more: of the same index, of the next one, or the last of all. -/
theorem iterations_advance {poly : U64} {t : Table} {g : GenState} (h : tableInv poly t (.generating g)) :
    ((g.advance poly t).1.elim .ready .generating : Phase).iterations = (Phase.generating g).iterations + 1 := by
  obtain ⟨hidx, hiter, -, -⟩ := h
  by_cases hlast : g.iter + 1 < genIter
  · simp only [GenState.advance, if_pos hlast, Option.elim_some, Phase.iterations, Nat.add_assoc]
  · have hcount : g.iter + 1 = 8 := by simp only [genIter] at hiter hlast; omega
    by_cases hmore : g.idx < 255
    · simp only [GenState.advance, if_neg hlast, if_pos hmore, Option.elim_some, Phase.iterations, GenState.start]
      omega
    · simp only [GenState.advance, if_neg hlast, if_neg hmore, Option.elim_none, Phase.iterations]
      omega

/-- A run that begins with a step goes on from the state after it. -/
theorem run_of_step {M : Host.Core} {s t : M.State} (h : M.step s = .next t) (k : Nat) :
    M.run (k + 1) s = M.run k t := by
  simp only [Host.Core.run, h]

/-- With nothing on the agenda and the generator at work, a step is one iteration and changes nothing else. -/
theorem step_generator {s : State} {g : GenState} (hagenda : s.agenda = []) (hp : s.phase = .generating g)
    (htbl : tableInv s.cfg.poly s.tbl s.phase) :
    ∃ p t, step s = .next { s with phase := p, tbl := t } ∧ p ≠ .asserted ∧ tableInv s.cfg.poly t p ∧
      p.iterations = s.phase.iterations + 1 := by
  rw [hp] at htbl ⊢
  refine ⟨_, _, ?_, ?_, tableInv_advance htbl, iterations_advance htbl⟩
  · rw [step_of_empty_agenda hagenda, State.serve_of_generating hp, State.generate_eq]
  · cases (g.advance s.cfg.poly s.tbl).1 <;> exact nofun

/-- With nothing on the agenda and reset released, `k` steps make `k` iterations and change nothing else, as long as
there are so many to make. -/
theorem run_generator (k : Nat) {s : State} (hagenda : s.agenda = []) (hreleased : s.phase ≠ .asserted)
    (htbl : tableInv s.cfg.poly s.tbl s.phase) (hk : s.phase.iterations + k ≤ 256 * 8) :
    ∃ p t, Host.Core.run Sys2Proof.core k s = .next { s with phase := p, tbl := t } ∧
      tableInv s.cfg.poly t p ∧ p.iterations = s.phase.iterations + k := by
  induction k generalizing s with
  | zero => exact ⟨s.phase, s.tbl, rfl, htbl, rfl⟩
  | succ k ih =>
    cases hp : s.phase with
    | asserted => exact absurd hp hreleased
    | ready =>
      rw [hp, Phase.iterations] at hk
      omega
    | generating g =>
      obtain ⟨p, t, hstep, hp', htbl', hone⟩ := step_generator hagenda hp htbl
      obtain ⟨q, u, hrun, hinv, hmade⟩ := ih (s := { s with phase := p, tbl := t }) hagenda hp' htbl'
        (by dsimp only; omega)
      refine ⟨q, u, (run_of_step hstep k).trans hrun, hinv, ?_⟩
      dsimp only at hmade
      rw [hmade, hone, hp, Nat.add_assoc, Nat.add_comm 1]

/-! ### Reset from every state (R171 to R173) -/

/-- The state after reset is asserted and released: the engines are at their reset values and the generator begins. -/
def State.released (s : State) : State :=
  { s with phase := .generating (GenState.start 0), engines := s.engines.map Engine.inReset, agenda := [] }

/-- The first step asserts reset. -/
theorem step_assertReset {s : State} {rest : List Input} (ha : s.agenda = .assertReset :: rest) :
    step s = .next { s.assertReset with agenda := rest } :=
  step_of_input ha nofun

/-- The steps after the first two are those of the state in which reset is released. -/
theorem run_reset {s : State} (ha : s.agenda = [.assertReset, .releaseReset]) (k : Nat) :
    Host.Core.run Sys2Proof.core (k + 2) s = Host.Core.run Sys2Proof.core k s.released := by
  have hrelease : step { s.assertReset with agenda := [.releaseReset] } = .next s.released :=
    step_of_input (x := .releaseReset) rfl nofun
  exact (run_of_step (step_assertReset ha) (k + 1)).trans (run_of_step hrelease k)

/-- Released from reset, the generator has made `k` iterations after `k` steps. -/
theorem run_released (s : State) {k : Nat} (hk : k ≤ 256 * 8) :
    ∃ p t, Host.Core.run Sys2Proof.core k s.released = .next { s.released with phase := p, tbl := t } ∧
      tableInv s.cfg.poly t p ∧ p.iterations = k := by
  have hstart : tableInv s.cfg.poly s.tbl (.generating (GenState.start 0)) :=
    ⟨by decide, by decide, rfl, fun b hb => absurd hb (Nat.not_lt_zero _)⟩
  have hnone : s.released.phase.iterations = 0 := rfl
  obtain ⟨p, t, hrun, hinv, hcount⟩ := run_generator k (s := s.released) rfl nofun hstart (by omega)
  exact ⟨p, t, hrun, hinv, by omega⟩

/-- Settles O43: the generator has made all its iterations after the last step, and at none before. -/
theorem resetFromEveryState : Obligations.ResetFromEveryState := by
  intro s ha
  refine ⟨?_, fun k t hpos hk hrun => ?_⟩
  · obtain ⟨p, t, hrun, hinv, hcount⟩ := run_released s (k := 256 * 8) le_rfl
    obtain rfl : p = .ready := (iterations_eq_iff_ready hinv).mp hcount
    refine ⟨{ s.released with phase := .ready, tbl := t }, ?_, rfl, hinv, rfl⟩
    rw [Nat.add_comm, run_reset ha, hrun]
  · obtain _ | _ | j := k
    · exact absurd hpos (Nat.lt_irrefl 0)
    · obtain rfl := Host.Outcome.next.inj ((run_of_step (step_assertReset ha) 0).symm.trans hrun)
      exact nofun
    · have hj : j < 256 * 8 := by omega
      obtain ⟨p, tbl, hrun', hinv, hcount⟩ := run_released s hj.le
      rw [run_reset ha, hrun'] at hrun
      obtain rfl := Host.Outcome.next.inj hrun
      exact fun hready => hj.ne (hcount ▸ (iterations_eq_iff_ready hinv).mpr hready)

end Sys2Proof.Machine
end
